-- ==== Sys2Proof/Word.lean ====
section
/-! DEFINITION. The word types of the core (spec/00_scope.md R5, R6): every quantity is an unsigned bit vector. -/

namespace Sys2Proof

/-- A byte of memory, and the contents of a general register (R11, R40): 8 bits, unsigned. -/
abbrev Byte := BitVec 8

/-- An instruction word, a call-stack slot, the program counter (R15, R18, R70): 16 bits. -/
abbrev Word := BitVec 16

/-- The 12-bit immediate `nnn` (R73). -/
abbrev Imm12 := BitVec 12

/-- A register index taken from an instruction: a 4-bit field, so always in [0,16) (R13, R74). -/
abbrev RegIx := BitVec 4

end Sys2Proof
end

