-- ==== Sys2Proof/Config.lean ====
section
/-! DEFINITION. The parameters of the core, fixed for this hardware (spec/00_scope.md R5). The spec leaves no value
free, so there is no opaque constant here. -/

namespace Sys2Proof.Config

/-- `MEM_SIZE`: number of byte locations; the valid addresses are 0 to 4095. -/
abbrev memSize : Nat := 4096

/-- `INSN_BYTES`: length of every instruction in bytes. -/
abbrev insnBytes : Nat := 2

/-- `NREGS`: number of general registers. -/
abbrev nRegs : Nat := 16

/-- `FLAG_REG`: index of the register that receives the carry (R14). -/
abbrev flagReg : RegIx := 15

/-- `STACK_DEPTH`: number of call-stack slots and largest value of `sp` (R18, R19; capacity by decision D9, log
entry 6). -/
abbrev stackDepth : Nat := 16

/-- `PC_START` as the host leaves it when it names no other start (R181, decision D3; log entry 9). -/
abbrev pcStart : Word := 0

/-- A bound on the steps of one run, so that `run` is a total function (log entry 15). With `d` the distance of an
address from the top of the 16-bit range, a step makes the sequence (d of the live slots from the bottom, d of `pc`)
smaller in the dictionary order; read as a number of 17 digits in base 65537 it starts below this bound. -/
abbrev maxRunSteps : Nat := 65537 ^ 17

end Sys2Proof.Config
end

