-- ==== Sys2Proof/Syntax.lean ====
section
/-! DEFINITION. The instructions of the core: the four rows of spec/opcode_table.json (spec/30_encoding.md R75). -/

namespace Sys2Proof

/-- One constructor per row of the opcode table. The operand types are the fields' own widths (R71), so an operand
out of range cannot be written (R13). -/
inductive Instr where
  /-- HALT (R120), format Z. -/
  | halt
  /-- RETURN (R128), format Z. -/
  | ret
  /-- CALL nnn (R127), format A: `nnn` is an absolute byte address. -/
  | call (nnn : Imm12)
  /-- ADD x,y (R141), format R: `x` is the destination and first source, `y` the second source. -/
  | add (x y : RegIx)
  deriving DecidableEq, Repr

end Sys2Proof
end

