-- ==== Sys2Proof/WellFormed.lean ====
section
/-! DEFINITION. What a well-formed instruction and a legal instruction word are (spec/30_encoding.md R75, R77, R79). -/

namespace Sys2Proof

/-- One row of the opcode map: an instruction word `w` selects it when `(w AND mask) == match` (R75). -/
structure OpcodeRow where
  mnemonic : String
  pattern : Word
  mask : Word
  deriving DecidableEq, Repr

/-- `w` selects the row (R75). -/
def OpcodeRow.selects (r : OpcodeRow) (w : Word) : Bool :=
  w &&& r.mask == r.pattern

def haltRow : OpcodeRow := ⟨"HALT", 0x0000, 0xFFFF⟩
def retRow : OpcodeRow := ⟨"RETURN", 0x00EE, 0xFFFF⟩
def callRow : OpcodeRow := ⟨"CALL", 0x2000, 0xF000⟩
def addRow : OpcodeRow := ⟨"ADD", 0x8004, 0xF00F⟩

/-- The complete opcode map (R75), in the order of spec/opcode_table.json. -/
def opcodeMap : List OpcodeRow := [haltRow, retRow, callRow, addRow]

/-- The row an instruction belongs to. -/
def Instr.row : Instr → OpcodeRow
  | .halt => haltRow
  | .ret => retRow
  | .call _ => callRow
  | .add _ _ => addRow

/-- A legal instruction word: one that selects a row. Every other word is illegal (R77). -/
def legalWord (w : Word) : Bool := opcodeMap.any (·.selects w)

/-- An instruction is well-formed when each operand is in the range the machine has for it: an address of memory
(R57), a register of the register file (R13). The operand types make this so for every term of `Instr`. -/
def Instr.wellFormed : Instr → Bool
  | .halt => true
  | .ret => true
  | .call nnn => decide (nnn.toNat < Config.memSize)
  | .add x y => decide (x.toNat < Config.nRegs) && decide (y.toNat < Config.nRegs)

end Sys2Proof
end

