-- ==== Sys2Proof/Decode.lean ====
section
/-! DEFINITION. The decoder, total on words and on any bytes, and the encoder (spec/30_encoding.md R71, R75, R81;
byte order spec/20_memory.md R45). -/

namespace Sys2Proof

/-- Field `c`, bits 15:12, the major opcode (R71). -/
def fieldC (w : Word) : BitVec 4 := w.extractLsb' 12 4

/-- Field `x`, bits 11:8 (R71). -/
def fieldX (w : Word) : BitVec 4 := w.extractLsb' 8 4

/-- Field `y`, bits 7:4 (R71). -/
def fieldY (w : Word) : BitVec 4 := w.extractLsb' 4 4

/-- Field `d`, bits 3:0, the minor opcode (R71). -/
def fieldD (w : Word) : BitVec 4 := w.extractLsb' 0 4

/-- Field `nnn`, bits 11:0 (R71). -/
def fieldNNN (w : Word) : Imm12 := w.extractLsb' 0 12

/-- What the decoder answers: an instruction, or the illegal word itself (R81). -/
inductive Decoded where
  | instr (i : Instr)
  | unsupported (w : Word)
  deriving DecidableEq, Repr

/-- The decoder (R81): total, reads nothing but the word. -/
def decode (w : Word) : Decoded :=
  if fieldC w = 0x0 ∧ fieldX w = 0x0 ∧ fieldY w = 0x0 ∧ fieldD w = 0x0 then .instr .halt
  else if fieldC w = 0x0 ∧ fieldX w = 0x0 ∧ fieldY w = 0xE ∧ fieldD w = 0xE then .instr .ret
  else if fieldC w = 0x2 then .instr (.call (fieldNNN w))
  else if fieldC w = 0x8 ∧ fieldD w = 0x4 then .instr (.add (fieldX w) (fieldY w))
  else .unsupported w

/-- The encoder, the inverse R81 gives: each operand placed in its field of R71. -/
def encode : Instr → Word
  | .halt => 0x0000
  | .ret => 0x00EE
  | .call nnn => 0x2#4 ++ nnn
  | .add x y => 0x8#4 ++ x ++ y ++ 0x4#4

/-- `{hi, lo} = (hi << 8) | lo` (R6, R45). -/
def joinBytes (hi lo : Byte) : Word := hi ++ lo

/-- The byte at the lower address: the high byte (R45). -/
def highByte (w : Word) : Byte := w.extractLsb' 8 8

/-- The byte at the higher address: the low byte (R45). -/
def lowByte (w : Word) : Byte := w.extractLsb' 0 8

/-- An instruction word as it lies in memory, lowest address first (R45). -/
def wordBytes (w : Word) : List Byte := [highByte w, lowByte w]

/-- Why a byte sequence gives no instruction. -/
inductive DecodeError where
  /-- Fewer than two bytes are there: no instruction word (R70). -/
  | truncated
  /-- The two bytes form a word outside the opcode map (R77). -/
  | unsupported (w : Word)
  deriving DecidableEq, Repr

/-- Decoding on bytes: the first two form the word, high byte first; the rest is given back (R70, R45). -/
def decodeBytes : List Byte → Except DecodeError (Instr × List Byte)
  | hi :: lo :: rest =>
    match decode (joinBytes hi lo) with
    | .instr i => .ok (i, rest)
    | .unsupported w => .error (.unsupported w)
  | _ => .error .truncated

/-- The word whose low `nbits` bits are those of `w`, every bit above them 0 (an instruction is 16 bits, R70). -/
def tableWord (nbits w : Nat) : Word := BitVec.ofNat 16 (w % 2 ^ nbits)

/-- The instruction the decoder reads from an instruction whose bits are `w`, numbered as the opcode table numbers
them: the word is laid out in memory order and given to the decoder. -/
def decodeTableWord (nbits w : Nat) : Option Instr :=
  match decodeBytes (wordBytes (tableWord nbits w)) with
  | .ok (i, _) => some i
  | .error _ => none

end Sys2Proof
end

