-- ==== Sys2Proof/Machine/State.lean ====
section
/-! DEFINITION. The state of the core, whole (spec/10_state.md R10), the reasons a step can stop, and the state after
reset (R28). -/

namespace Sys2Proof.Machine

/-- The run status (R21). -/
inductive Status where
  | running
  | halted
  deriving DecidableEq, Repr

/-- The four kinds of fault of the core and no other (spec/60_exceptions.md R150). A fault ends the run and changes no
state (R155); it is what the spec says happens, so each is safe. -/
inductive Fault where
  /-- AddressingFault: raised by the fetch when `pc > 4094` (R151), and by the host's transactions on an index, address
  or range out of bounds (R152). Safe. -/
  | addressingFault
  /-- StackOverflow: raised by CALL when `sp = 16` (R153). Safe. -/
  | stackOverflow
  /-- StackUnderflow: raised by RETURN when `sp = 0` (R153). Safe. -/
  | stackUnderflow
  /-- UnsupportedOpcode: raised by the dispatcher for every illegal word, with the whole word (R154). Safe. -/
  | unsupportedOpcode (insn : Word)
  deriving DecidableEq, Repr

/-- Why a step has no outcome in the spec's sense. -/
inductive Refusal where
  /-- An instruction without a meaning in this model. Every instruction has one: nothing raises it. Safe. -/
  | notModelled (mnemonic : String)
  /-- `step` on a core whose status is Halted: "When `status = Halted` the core has no step" (R100). No instruction is
  refused by it. DESIGN CHOICE (log entry 5). Safe. -/
  | halted
  deriving DecidableEq, Repr

/-- Memory as the list of its non-zero bytes by rising address; an unlisted address of [0,4096) reads as 0, the reset
value of every byte (R28, R30). Log entry 3. -/
abbrev Memory := List Host.Cell

/-- The complete state of the core (R10). -/
structure State where
  /-- `x[0]` to `x[15]` (R11); `x[15]` is also the carry flag (R14). -/
  x : Vector Byte 16
  /-- `mem[0]` to `mem[4095]` (R23, R40). -/
  mem : Memory
  /-- Program counter: the address of the next instruction to fetch (R15). -/
  pc : Word
  /-- `stack[0]` to `stack[15]`, the call-stack slots (R18). -/
  stack : Vector Word 16
  /-- Stack pointer: the number of occupied slots, in [0,16] (R19; a bounded natural, log entry 1). -/
  sp : Fin 17
  /-- Run status (R21). -/
  status : Status
  deriving DecidableEq, Repr

/-- Reset with the start address the host names (R28, R180, R181): everything zero, `pc = PC_START`, Running. -/
def State.resetAt (pcStart : Word) : State where
  x := Vector.replicate 16 0
  mem := []
  pc := pcStart
  stack := Vector.replicate 16 0
  sp := 0
  status := .running

/-- The machine right after reset, with the default start (R28; log entry 9). -/
def State.reset : State := State.resetAt Config.pcStart

end Sys2Proof.Machine
end

