-- ==== Sys2Proof/Machine/Ops.lean ====
section
/-! DEFINITION. The named operations over memory, registers, the call stack and the program counter, the fetch, and
what a fault does (spec/00_scope.md R7). Every reader and writer of state in the model goes through these. -/

namespace Sys2Proof.Machine

/-! ### Memory -/

/-- The byte at an address: an unlisted address holds 0 (R28, R30, R47). -/
def Memory.read : Memory → Nat → Byte
  | [], _ => 0
  | (b, w) :: m, a => if a = b then w else Memory.read m a

/-- Store one byte, keeping the list sorted and free of zero bytes (R47; log entry 3). -/
def Memory.write : Memory → Nat → Byte → Memory
  | [], a, v => if v = 0 then [] else [(a, v)]
  | (b, w) :: m, a, v =>
    if a < b then (if v = 0 then (b, w) :: m else (a, v) :: (b, w) :: m)
    else if a = b then (if v = 0 then m else (a, v) :: m)
    else (b, w) :: Memory.write m a v

/-- Store a sequence of bytes from an address upwards (R43). -/
def Memory.writeAll : Memory → Nat → List Byte → Memory
  | m, _, [] => m
  | m, a, v :: vs => Memory.writeAll (m.write a v) (a + 1) vs

/-- The canonical form: addresses strictly rising, all inside the memory, no byte equal to what an unlisted address
reads as. -/
abbrev Memory.wf (m : Memory) : Prop :=
  m.Pairwise (fun p q => p.1 < q.1) ∧ ∀ c ∈ m, c.1 < Config.memSize ∧ c.2 ≠ 0

/-- Address validation (R42, R44): `n` bytes from `addr` lie inside [0,4096), on the full value, without wrap (log entry 16). -/
def inMemory (addr n : Nat) : Bool := decide (addr + n ≤ Config.memSize)

/-- `MemRead(addr, 1)`, the checked read of a byte (R42). -/
def memRead1 (addr : Nat) (s : State) : Except Fault Byte :=
  if inMemory addr 1 then .ok (s.mem.read addr) else .error .addressingFault

/-- `MemRead(addr, 2)`, the checked read of a word, the byte at `addr` the high byte (R42). -/
def memRead2 (addr : Nat) (s : State) : Except Fault Word :=
  if inMemory addr 2 then .ok (joinBytes (s.mem.read addr) (s.mem.read (addr + 1))) else .error .addressingFault

/-- `MemWrite(addr, n, v)` with `n` the length of `v`: the checked write, used by the host only; the check comes
before any write (R43; log entry 11). -/
def memWrite (addr : Nat) (bytes : List Byte) (s : State) : Except Fault State :=
  if inMemory addr bytes.length then .ok { s with mem := s.mem.writeAll addr bytes } else .error .addressingFault

/-! ### Registers -/

/-- Read `x[i]`. No register is hardwired (R12). -/
def State.reg (s : State) (i : RegIx) : Byte := s.x[i.toNat]'i.isLt

/-- `x[i] <- v` (R12). -/
def State.setReg (s : State) (i : RegIx) (v : Byte) : State := { s with x := s.x.set i.toNat v i.isLt }

/-- The range check of a register index that the host gives (R13): in [0,16), on its full value, or AddressingFault. -/
def regIndex (index : Nat) : Except Fault RegIx :=
  if h : index < Config.nRegs then .ok (BitVec.ofNatLT index h) else .error .addressingFault

/-! ### Program counter and status -/

/-- The post-advance program counter `npc = pc + 2` (R102): the address of the next sequential instruction. -/
def State.npc (s : State) : Word := s.pc + 2

/-- `pc <- t`. -/
def State.setPc (s : State) (t : Word) : State := { s with pc := t }

/-- `status <- v`. -/
def State.setStatus (s : State) (v : Status) : State := { s with status := v }

/-! ### The call-stack controller -/

/-- Read `stack[i]`. -/
def State.slot (s : State) (i : Fin 16) : Word := s.stack[i]

/-- `push(v)`: the capacity check comes before the write; the slot written is the one `sp` indexed before the
increment (R125; capacity 16, log entry 6). -/
def State.push (s : State) (v : Word) : Except Fault State :=
  if h : s.sp.val < Config.stackDepth then
    .ok { s with stack := s.stack.set s.sp.val v h, sp := ⟨s.sp.val + 1, Nat.succ_lt_succ h⟩ }
  else .error .stackOverflow

/-- `pop()`: the value of the top slot and the state with `sp` one less; the slot keeps its value (R126; log entry
10). -/
def State.pop (s : State) : Except Fault (Word × State) :=
  if 0 < s.sp.val then
    .ok (s.stack[s.sp.val - 1]'(by omega), { s with sp := ⟨s.sp.val - 1, by omega⟩ })
  else .error .stackUnderflow

/-! ### Fetch -/

/-- Step 1: the instruction word at `pc`, or AddressingFault when `pc > 4094` (R101). No alignment condition (R46; log
entry 8). -/
def State.fetch (s : State) : Except Fault Word := memRead2 s.pc.toNat s

/-- Store an instruction word at an address as the host's load would, high byte first (R45). -/
def State.placeWord (s : State) (addr : Nat) (w : Word) : State :=
  { s with mem := s.mem.writeAll addr (wordBytes w) }

/-! ### How a step ends without a next state -/

/-- `raise F(info)` (R155): the step ends with the fault. No write of the step takes effect, so the state after it is
the state before the fetch, which whoever took the step still holds (`runFor` hands it on); `pc` addresses the faulting
instruction and the status stays Running. There is no handler, no saved register and no mode inside the core (R159),
and no return from a fault but a further run from the same state (R160). Log entry 4. -/
def raise (f : Fault) : Host.Outcome State Fault Refusal := .fault f

/-- The dispatcher's fifth output: the fault for an illegal word, which carries the whole word (R154). -/
def raiseUnsupported (insn : Word) : Host.Outcome State Fault Refusal := raise (.unsupportedOpcode insn)

/-- A halted core has no step (R100, R121; log entry 5). -/
def noStep : Host.Outcome State Fault Refusal := .refused .halted

end Sys2Proof.Machine
end

