-- ==== Sys2Proof/Machine/Flags.lean ====
section
/-! DEFINITION. The ALU and the one flag of the core (spec/43_arith_add.md R140, spec/10_state.md R14). -/

namespace Sys2Proof.Machine

/-- The exact 9-bit sum `t` of two bytes (R140). -/
def sum9 (a b : Byte) : BitVec 9 := a.setWidth 9 + b.setWidth 9

/-- `add8(a, b)`: the sum `t[7:0]` and the carry `t[8]` (R140). No carry-in. -/
def add8 (a b : Byte) : Byte × BitVec 1 := ((sum9 a b).extractLsb' 0 8, (sum9 a b).extractLsb' 8 1)

/-- The carry as the byte `x[15]` holds: `zext_8(cy)`, 0x00 or 0x01 (R141). -/
def carryByte (cy : BitVec 1) : Byte := cy.setWidth 8

/-- Write the flag register: set on carry-out, cleared otherwise, never sticky (R14, R141). -/
def State.setCarry (s : State) (cy : BitVec 1) : State := s.setReg Config.flagReg (carryByte cy)

end Sys2Proof.Machine
end

