-- ==== Sys2Proof/Machine/Operands.lean ====
section
/-! DEFINITION. The operand forms of the instruction set (spec/30_encoding.md R73, R74): an absolute address, and a
pair of register indices. -/

namespace Sys2Proof.Machine

/-- The target of CALL: `nnn` used as it is, zero-extended to the 16 bits of `pc` (R73). -/
def callTarget (nnn : Imm12) : Word := nnn.setWidth 16

/-- The two operands of ADD, both read from the state before any write (R74, R141). -/
def addOperands (x y : RegIx) (s : State) : Byte × Byte := (s.reg x, s.reg y)

end Sys2Proof.Machine
end

