-- ==== Sys2Proof/Machine/Arith.lean ====
section
/-! DEFINITION. The arithmetic family: ADD (spec/43_arith_add.md). -/

namespace Sys2Proof.Machine

/-- ADD x,y (R141): both operands read, the sum to `x[x]`, then the carry to `x[15]` (the later write, so it wins for
x = 15: R142, log entry 7), then `pc <- npc`. Never faults. -/
def execAdd (x y : RegIx) (s : State) : Host.Outcome State Fault Refusal :=
  let ops := addOperands x y s
  let r := add8 ops.1 ops.2
  .next (((s.setReg x r.1).setCarry r.2).setPc s.npc)

end Sys2Proof.Machine
end

