-- ==== Sys2Proof/Machine/Control.lean ====
section
/-! DEFINITION. The control-transfer family: RETURN and CALL (spec/42_control_call_return.md). -/

namespace Sys2Proof.Machine

/-- RETURN (R128): pop, all 16 bits of the popped slot to `pc`; StackUnderflow on an empty stack. -/
def execRet (s : State) : Host.Outcome State Fault Refusal :=
  match s.pop with
  | .ok (v, t) => .next (t.setPc v)
  | .error f => raise f

/-- CALL nnn (R127): push the post-advance program counter, then `pc <- zext_16(nnn)`; StackOverflow on a full stack.
The target is not checked and needs no alignment. -/
def execCall (nnn : Imm12) (s : State) : Host.Outcome State Fault Refusal :=
  match s.push s.npc with
  | .ok t => .next (t.setPc (callTarget nnn))
  | .error f => raise f

end Sys2Proof.Machine
end

