-- ==== Sys2Proof/Machine/System.lean ====
section
/-! DEFINITION. The system family: HALT (spec/41_system_halt.md). -/

namespace Sys2Proof.Machine

/-- HALT (R120): `pc <- npc; status <- Halted`. Never faults; the stack need not be empty. -/
def execHalt (s : State) : Host.Outcome State Fault Refusal :=
  .next ((s.setPc s.npc).setStatus .halted)

end Sys2Proof.Machine
end

