-- ==== Sys2Proof/Machine/Step.lean ====
section
/-! DEFINITION. One step of the core: fetch, advance, decode, dispatch (spec/40_step_fetch_decode_dispatch.md R100 to
R108), and the placing of an instruction where the next step fetches. -/

namespace Sys2Proof.Machine

/-- One step (R108). The advance of R102 is the `npc` each handler commits (R105). -/
def step (s : State) : Host.Outcome State Fault Refusal :=
  match s.status with
  | .halted => noStep
  | .running =>
    match s.fetch with
    | .error f => raise f
    | .ok insn =>
      match decode insn with
      | .instr i => exec i s
      | .unsupported w => raiseUnsupported w

/-- `s` with the instruction whose bits are `w` stored where the next step fetches: at `pc`, high byte first, the core
Running. A `pc` that no fetch succeeds at (above 4094) is replaced by 0. It stands for the host's load (R186, R190;
log entry 14). -/
def State.withFetchWord (s : State) (nbits w : Nat) : State :=
  let t := if inMemory s.pc.toNat 2 then s else s.setPc 0
  (t.placeWord t.pc.toNat (tableWord nbits w)).setStatus .running

end Sys2Proof.Machine
end

