-- ==== Sys2Proof/Machine/Transactions.lean ====
section
/-! DEFINITION. The host's side of the core: the run loop (spec/40_step_fetch_decode_dispatch.md R107), the fault report
(spec/60_exceptions.md R163, R164), the observation outputs (spec/10_state.md R22) and the transactions
(spec/70_reset_and_hazards.md R180 to R189). -/

namespace Sys2Proof.Machine

/-! ### A run and its report -/

/-- How a run ends (R107, R110): `Ok`, with the core Halted, or `Err` with the fault and its payload (R163). -/
inductive RunEnd where
  | ok
  | err (f : Fault)
  deriving DecidableEq, Repr

/-- `run` with at most `k` steps: the state at the end and how the run ended, or nothing when `k` steps do not end it.
A halted core performs no step; a fault hands on the state before the faulting step (R107, R155; log entries 4 and
5). -/
def runFor : Nat → State → Option (State × RunEnd)
  | 0, s => if s.status = .halted then some (s, .ok) else none
  | k + 1, s =>
    if s.status = .halted then some (s, .ok)
    else
      match step s with
      | .next t => runFor k t
      | .fault f => some (s, .err f)
      | .refused _ => none

/-- `run()` (R107, R188): no step limit in the spec; the bound is one that no run reaches (R198; log entry 15). -/
def run (s : State) : Option (State × RunEnd) := runFor Config.maxRunSteps s

/-- The numeric code of a fault kind (R150, decision D5; log entry 13). -/
def Fault.code : Fault → BitVec 3
  | .addressingFault => 1
  | .stackOverflow => 2
  | .stackUnderflow => 3
  | .unsupportedOpcode _ => 4

/-- The output `fault_code[2:0]`: 0 when the run ended in Halted (R164). -/
def RunEnd.faultCode : RunEnd → BitVec 3
  | .ok => 0
  | .err f => f.code

/-- The output `fault_insn[15:0]`: the illegal word when the code is 4, else 0 (R164). -/
def RunEnd.faultInsn : RunEnd → Word
  | .err (.unsupportedOpcode w) => w
  | _ => 0

/-! ### Observation outputs -/

/-- The output `status`: Running = 0, Halted = 1 (R20, R21, decision D18; log entry 13). -/
def Status.bit : Status → BitVec 1
  | .running => 0
  | .halted => 1

/-- The output `sp` on its 5 bits (R20, R22). -/
def State.spOut (s : State) : BitVec 5 := BitVec.ofNat 5 s.sp.val

/-! ### Transactions -/

/-- What the host may ask of the core between runs (R182). Indices and addresses are unsigned integers of any size, a
value is 8 bits (R189). -/
inductive Transaction where
  | reset (pcStart : Word)
  | setRegister (index : Nat) (value : Byte)
  | getRegister (index : Nat)
  | writeByte (address : Nat) (value : Byte)
  | loadRange (start stop : Nat) (bytes : List Byte)
  | readByte (address : Nat)
  | run
  deriving DecidableEq, Repr

/-- What the host is answered. -/
inductive Reply where
  | ok
  | value (v : Byte)
  | err (f : Fault)
  /-- Stands for a `run` that never ends. By R198 there is none (log entry 15). -/
  | endless
  deriving DecidableEq, Repr

/-- `set_register(index, value)` (R183): the state with the register written, or the fault. -/
def setRegister (index : Nat) (value : Byte) (s : State) : Except Fault State :=
  match regIndex index with
  | .ok i => .ok (s.setReg i value)
  | .error f => .error f

/-- `get_register(index)` (R184). -/
def getRegister (index : Nat) (s : State) : Except Fault Byte :=
  match regIndex index with
  | .ok i => .ok (s.reg i)
  | .error f => .error f

/-- `write_byte(address, value)` (R185). -/
def writeByte (address : Nat) (value : Byte) (s : State) : Except Fault State := memWrite address [value] s

/-- `read_byte(address)` (R187). -/
def readByte (address : Nat) (s : State) : Except Fault Byte := memRead1 address s

/-- `load_range((start, stop), bytes)` over the half-open range [start, stop), all checks before the first write (R186;
log entry 11). -/
def loadRange (start stop : Nat) (bytes : List Byte) (s : State) : Except Fault State :=
  if start > stop then .error .addressingFault
  else if stop > Config.memSize then .error .addressingFault
  else if stop - start ≠ bytes.length then .error .addressingFault
  else .ok { s with mem := s.mem.writeAll start bytes }

/-- A transaction that writes: a failing one changes nothing (R152; log entry 11). -/
def answerWrite (r : Except Fault State) (s : State) : State × Reply :=
  match r with
  | .ok t => (t, .ok)
  | .error f => (s, .err f)

/-- A transaction that reads: it changes nothing (R184, R187). -/
def answerRead (r : Except Fault Byte) (s : State) : State × Reply :=
  match r with
  | .ok v => (s, .value v)
  | .error f => (s, .err f)

/-- The end of a run as the host sees it (R107). -/
def answerRun (r : Option (State × RunEnd)) (s : State) : State × Reply :=
  match r with
  | some (t, .ok) => (t, .ok)
  | some (t, .err f) => (t, .err f)
  | none => (s, .endless)

/-- One transaction of the host, complete before the next begins (R182; log entry 12). -/
def transact (t : Transaction) (s : State) : State × Reply :=
  match t with
  | .reset pcStart => (State.resetAt pcStart, .ok)
  | .setRegister index value => answerWrite (setRegister index value s) s
  | .getRegister index => answerRead (getRegister index s) s
  | .writeByte address value => answerWrite (writeByte address value s) s
  | .loadRange start stop bytes => answerWrite (loadRange start stop bytes s) s
  | .readByte address => answerRead (readByte address s) s
  | .run => answerRun (run s) s

/-- An execution: the host's transactions one after another, each `run` expanding to its steps (R199). -/
def session : List Transaction → State → State × List Reply
  | [], s => (s, [])
  | t :: ts, s =>
    let (u, r) := transact t s
    let (v, rs) := session ts u
    (v, r :: rs)

end Sys2Proof.Machine
end

