-- ==== Sys2Proof/Safety.lean ====
section
/-! DEFINITION. What counts as a good state and a good run (spec/10_state.md R24, spec/40_step_fetch_decode_dispatch.md
R110), the step in one block as the spec prints it (R108), and the relations claims are stated with. -/

namespace Sys2Proof.Machine

/-- R24 item 3: every live slot holds a return address in [2,4096]. -/
def State.liveSlotsInRange (s : State) : Prop :=
  ∀ i : Fin 16, i.val < s.sp.val → 2 ≤ (s.slot i).toNat ∧ (s.slot i).toNat ≤ 4096

/-- What every reachable state meets for `PC_START <= 4096`. From R24: live slots in [2,4096] (item 3) and `pc <= 4096`
(item 4); items 1 and 2 (the ranges of `sp` and of the registers) hold by the types, and item 5 (no step writes memory)
is about steps. The third clause, memory in its canonical form, is no part of R24: it belongs to the model's own form
of memory, a DESIGN CHOICE (log entry 3). -/
def State.inv (s : State) : Prop :=
  s.liveSlotsInRange ∧ s.pc.toNat ≤ 4096 ∧ s.mem.wf

/-- Reachable from reset with `PC_START <= 4096` by steps and host transactions (R24). -/
inductive Reachable : State → Prop
  | reset (pcStart : Word) (h : pcStart.toNat ≤ 4096) : Reachable (State.resetAt pcStart)
  | step (s t : State) (hs : Reachable s) (h : step s = .next t) : Reachable t
  | transact (s : State) (t : Transaction) (hs : Reachable s)
      (h : ∀ p, t = .reset p → p.toNat ≤ 4096) : Reachable (transact t s).1

/-- A run that ends well: in Halted (R110). -/
def State.runsToHalt (s : State) : Prop := ∃ t, run s = some (t, .ok)

/-- `StepsAbove m s t`: steps lead from `s` to `t`, and `sp > m` in every state of the way, both ends included
(R129: "`sp` stays above `k` until the matching RETURN"). -/
inductive StepsAbove (m : Nat) : State → State → Prop
  | here (s : State) (h : m < s.sp.val) : StepsAbove m s s
  | step (s t u : State) (h : m < s.sp.val) (hs : Machine.step s = .next t) (ht : StepsAbove m t u) : StepsAbove m s u

/-- CALLs one after another, each executed where the one before it went (R130). -/
def callAll : List Imm12 → State → Host.Outcome State Fault Refusal
  | [], s => .next s
  | n :: ns, s =>
    match exec (.call n) s with
    | .next t => callAll ns t
    | .fault f => .fault f
    | .refused r => .refused r

/-- The same but for the registers: memory, `pc`, call stack, `sp` and status agree (R132). -/
def SameControl (s t : State) : Prop :=
  s.mem = t.mem ∧ s.pc = t.pc ∧ s.stack = t.stack ∧ s.sp = t.sp ∧ s.status = t.status

/-- The same but for the dead slots `stack[sp]` to `stack[15]` (R18). -/
def SameLive (s t : State) : Prop :=
  s.x = t.x ∧ s.mem = t.mem ∧ s.pc = t.pc ∧ s.sp = t.sp ∧ s.status = t.status ∧
    ∀ i : Fin 16, i.val < s.sp.val → s.slot i = t.slot i

/-- The complete step as R108 prints it, in one block, over numbers: what `step` is held against. Each return of the
block is one branch; precondition `status == Running`. -/
def specStep (s : State) : Host.Outcome State Fault Refusal :=
  if s.pc.toNat > 4094 then .fault .addressingFault
  else
    let insn := (s.mem.read s.pc.toNat).toNat * 256 + (s.mem.read (s.pc.toNat + 1)).toNat
    let npc := s.pc.toNat + 2
    let c := insn / 4096 % 16
    let x := insn / 256 % 16
    let y := insn / 16 % 16
    let d := insn % 16
    let nnn := insn % 4096
    if c = 0 ∧ x = 0 ∧ y = 0 ∧ d = 0 then
      .next { s with pc := BitVec.ofNat 16 npc, status := .halted }
    else if c = 0 ∧ x = 0 ∧ y = 0xE ∧ d = 0xE then
      if s.sp.val = 0 then .fault .stackUnderflow
      else .next { s with pc := s.stack.toList.getD (s.sp.val - 1) 0, sp := Fin.ofNat 17 (s.sp.val - 1) }
    else if c = 2 then
      if s.sp.val = 16 then .fault .stackOverflow
      else .next { s with stack := s.stack.setIfInBounds s.sp.val (BitVec.ofNat 16 npc),
                          sp := Fin.ofNat 17 (s.sp.val + 1), pc := BitVec.ofNat 16 nnn }
    else if c = 8 ∧ d = 4 then
      let t := (s.x.toList.getD x 0).toNat + (s.x.toList.getD y 0).toNat
      .next { s with x := (s.x.setIfInBounds x (BitVec.ofNat 8 (t % 256))).setIfInBounds 15 (BitVec.ofNat 8 (t / 256)),
                     pc := BitVec.ofNat 16 npc }
    else .fault (.unsupportedOpcode (BitVec.ofNat 16 insn))

end Sys2Proof.Machine
end

