-- ==== Sys2Proof/Certificates/Slice0/Obligations.lean ====
section
/-! DEFINITION. The statements for the provers. Each docstring names the rule of spec/ it formalises; where a rule's
clause rests on a decision of spec/92_eei_decisions.md or on an inference the spec marks as derived, it says so. -/

open Sys2Proof Sys2Proof.Machine

/-! ### Encoding and decoding -/

/-- R75: the complete opcode map by match and mask, with the operand fields of R71; every other word is unsupported and
is handed on whole. -/
def Obligations.OpcodeMapByMatchAndMask : Prop :=
  ∀ w : Word,
    (decode w = .instr .halt ↔ w &&& 0xFFFF = 0x0000) ∧
    (decode w = .instr .ret ↔ w &&& 0xFFFF = 0x00EE) ∧
    (∀ nnn, decode w = .instr (.call nnn) ↔ w &&& 0xF000 = 0x2000 ∧ nnn.toNat = w.toNat % 4096) ∧
    (∀ x y, decode w = .instr (.add x y) ↔
      w &&& 0xF00F = 0x8004 ∧ x.toNat = w.toNat / 256 % 16 ∧ y.toNat = w.toNat / 16 % 16) ∧
    (∀ v, decode w = .unsupported v ↔
      v = w ∧ w &&& 0xFFFF ≠ 0x0000 ∧ w &&& 0xFFFF ≠ 0x00EE ∧ w &&& 0xF000 ≠ 0x2000 ∧ w &&& 0xF00F ≠ 0x8004)

/-- 30_encoding.md section 6: decode after encode is the identity on the four forms (an inference the spec marks as
derived, in R81), on the word and on its bytes in memory order; every instruction is well-formed. -/
def Obligations.DecodeAfterEncodeIsIdentity : Prop :=
  ∀ (i : Instr) (rest : List Byte),
    i.wellFormed = true ∧ decode (encode i) = .instr i ∧ decodeBytes (wordBytes (encode i) ++ rest) = .ok (i, rest)

/-- 30_encoding.md section 6: encode after decode is the identity on the legal words (derived, in R81), and the legal
words are those that decode to an instruction. -/
def Obligations.EncodeAfterDecodeIsIdentity : Prop :=
  ∀ w : Word, (legalWord w = true ↔ ∃ i, decode w = .instr i) ∧ ∀ i, decode w = .instr i → encode i = w

/-- R81's inverse: where the encoder puts each operand, as numbers. -/
def Obligations.EncoderPlacesFields : Prop :=
  (encode .halt).toNat = 0x0000 ∧ (encode .ret).toNat = 0x00EE ∧
    (∀ nnn, (encode (.call nnn)).toNat = 0x2000 + nnn.toNat) ∧
    ∀ x y, (encode (.add x y)).toNat = 0x8004 + x.toNat * 256 + y.toNat * 16

/-- R76 (derived): no word selects two rows of the opcode map. -/
def Obligations.OpcodeRowsAreDisjoint : Prop :=
  ∀ (w : Word) (r q : OpcodeRow), r ∈ opcodeMap → q ∈ opcodeMap → r.selects w = true → q.selects w = true → r = q

/-- Sanity: words written out from the decode vectors of spec/95_test_vectors.md section 2.1. -/
def Obligations.VectorWordsDecode : Prop :=
  decode 0x0000 = .instr .halt ∧ decode 0x00EE = .instr .ret ∧ decode 0x20EE = .instr (.call 0x0EE) ∧
    decode 0x8AB4 = .instr (.add 0xA 0xB) ∧ decode 0x00E0 = .unsupported 0x00E0 ∧
    decode 0x10EE = .unsupported 0x10EE ∧ decode 0x8015 = .unsupported 0x8015

/-! ### The step -/

/-- A step runs the decoded instruction: nothing stands around `exec` (the advance is the meaning's own `npc`). -/
def Obligations.StepRunsDecodedInstruction : Prop :=
  ∀ (s : State) (w : Word) (i : Instr),
    s.status = .running → s.fetch = .ok w → decode w = .instr i → step s = exec i s

/-- R108: the step is the block of pseudocode the spec prints (`specStep`), in every state it is defined in, and where
the block returns a fault every piece of state is as it was on entry. -/
def Obligations.StepIsTheSpecBlock : Prop :=
  ∀ s : State, s.status = .running →
    step s = specStep s ∧ ∀ f, specStep s = .fault f → transact .run s = (s, .err f)

/-- R101: the fetch reads the two bytes at `pc`, the first the high one, when `pc <= 4094`, at odd addresses alike;
above that the step ends with AddressingFault and no state changed. -/
def Obligations.FetchReadsBigEndianWindow : Prop :=
  ∀ s : State,
    (s.pc.toNat ≤ 4094 →
      ∃ w : Word, s.fetch = .ok w ∧
        w.toNat = (s.mem.read s.pc.toNat).toNat * 256 + (s.mem.read (s.pc.toNat + 1)).toNat) ∧
    (4094 < s.pc.toNat → s.fetch = .error .addressingFault ∧
      (s.status = .running → step s = .fault .addressingFault ∧ run s = some (s, .err .addressingFault)))

/-- R102 and R17 (derived): the advance after a successful fetch does not wrap and gives at most 4096. -/
def Obligations.AdvanceDoesNotWrap : Prop :=
  ∀ (s : State) (w : Word), s.fetch = .ok w → s.npc.toNat = s.pc.toNat + 2 ∧ s.npc.toNat ≤ 4096

/-- 40_step section 1: a Running core always has a step, a Halted core none. That a step of a Halted core is the
refusal `halted` is the model's choice (log entry 5). -/
def Obligations.OnlyAHaltedCoreHasNoStep : Prop :=
  ∀ s : State, (s.status = .halted → step s = .refused .halted) ∧
    (s.status = .running → (∃ t, step s = .next t) ∨ ∃ f, step s = .fault f)

/-- R156: which instruction raises which fault, and when, exactly. -/
def Obligations.StepFaultsExactlyWhen : Prop :=
  ∀ (s : State) (f : Fault), s.status = .running →
    (step s = .fault f ↔
      (4094 < s.pc.toNat ∧ f = .addressingFault) ∨
      ∃ w, s.fetch = .ok w ∧
        ((∃ nnn, decode w = .instr (.call nnn) ∧ s.sp.val = 16 ∧ f = .stackOverflow) ∨
         (decode w = .instr .ret ∧ s.sp.val = 0 ∧ f = .stackUnderflow) ∨
         (legalWord w = false ∧ f = .unsupportedOpcode w)))

/-- R154: UnsupportedOpcode is raised for each illegal word and only for it, carries the whole word as fetched, and its
code is told from those of the other three. -/
def Obligations.IllegalWordRaisesUnsupportedOpcode : Prop :=
  (∀ (s : State) (w : Word), s.status = .running → s.fetch = .ok w →
    (legalWord w = false ↔ step s = .fault (.unsupportedOpcode w)) ∧
      ∀ v, step s = .fault (.unsupportedOpcode v) → v = w) ∧
  ∀ f : Fault, f.code = 4 ↔ ∃ w, f = .unsupportedOpcode w

/-! ### The four instructions: result, frame, where they trap -/

/-- R120: HALT, its word, its whole effect and what it leaves unchanged, from every state. -/
def Obligations.HaltStopsTheCore : Prop :=
  decode 0x0000 = .instr .halt ∧
  ∀ s : State, ∃ t, exec .halt s = .next t ∧ t.pc = s.pc + 2 ∧ t.status = .halted ∧
    (∀ r, t.reg r = s.reg r) ∧ (∀ a, t.mem.read a = s.mem.read a) ∧ (∀ k, t.slot k = s.slot k) ∧ t.sp = s.sp

/-- R127: CALL, its word; with room on the stack it pushes `pc + 2` and goes to `nnn`, and changes nothing else; on a
full stack it raises StackOverflow. -/
def Obligations.CallPushesAndJumps : Prop :=
  (∀ nnn : Imm12, decode (0x2000 ||| nnn.setWidth 16) = .instr (.call nnn)) ∧
  ∀ (nnn : Imm12) (s : State),
    (∀ i : Fin 16, s.sp.val = i.val → ∃ t, exec (.call nnn) s = .next t ∧
      t.slot i = s.pc + 2 ∧ t.sp.val = s.sp.val + 1 ∧ t.pc.toNat = nnn.toNat ∧
      (∀ k, k ≠ i → t.slot k = s.slot k) ∧ (∀ r, t.reg r = s.reg r) ∧ (∀ a, t.mem.read a = s.mem.read a) ∧
      t.status = s.status) ∧
    (s.sp.val = 16 → exec (.call nnn) s = .fault .stackOverflow)

/-- R128: RETURN, its word; with a live slot it takes all 16 bits of the top one to `pc` and leaves every slot as it
was; on an empty stack it raises StackUnderflow. -/
def Obligations.ReturnPopsTheTopSlot : Prop :=
  decode 0x00EE = .instr .ret ∧
  ∀ s : State,
    (∀ i : Fin 16, s.sp.val = i.val + 1 → ∃ t, exec .ret s = .next t ∧
      t.pc = s.slot i ∧ t.sp.val = i.val ∧ (∀ k, t.slot k = s.slot k) ∧ (∀ r, t.reg r = s.reg r) ∧
      (∀ a, t.mem.read a = s.mem.read a) ∧ t.status = s.status) ∧
    (s.sp.val = 0 → exec .ret s = .fault .stackUnderflow)

/-- R140: `add8` is unsigned addition: the low byte of the exact sum, and carry 1 exactly when the sum exceeds 255. -/
def Obligations.Add8IsUnsignedAddition : Prop :=
  ∀ a b : Byte, (add8 a b).1.toNat = (a.toNat + b.toNat) % 256 ∧
    (add8 a b).2 = if 255 < a.toNat + b.toNat then 1 else 0

/-- 43_arith section 1 (the identities of R140, which the spec marks as derived). -/
def Obligations.Add8Identities : Prop :=
  ∀ a b : Byte, a.toNat + b.toNat = 256 * (add8 a b).2.toNat + (add8 a b).1.toNat ∧
    ((add8 a b).2 = 1 ↔ (add8 a b).1 < a) ∧ ((add8 a b).2 = 1 ↔ (add8 a b).1 < b) ∧
    add8 a b = add8 b a ∧ add8 a 0 = (a, 0)

/-- R141: ADD, its word and its whole effect from every state, for every pair of operands: the sum to `x`, the carry to
register 15 as the later write, `pc + 2`; all else unchanged. It never faults. -/
def Obligations.AddWritesSumAndCarry : Prop :=
  (∀ x y : RegIx, decode (0x8004 ||| x.setWidth 16 <<< 8 ||| y.setWidth 16 <<< 4) = .instr (.add x y)) ∧
  ∀ (x y : RegIx) (s : State), ∃ t, exec (.add x y) s = .next t ∧
    (∀ r, t.reg r =
      if r = 15 then (if 255 < (s.reg x).toNat + (s.reg y).toNat then 1 else 0)
      else if r = x then BitVec.ofNat 8 (((s.reg x).toNat + (s.reg y).toNat) % 256)
      else s.reg r) ∧
    t.pc = s.pc + 2 ∧ (∀ a, t.mem.read a = s.mem.read a) ∧ (∀ k, t.slot k = s.slot k) ∧ t.sp = s.sp ∧
    t.status = s.status

/-- R142 (the spec's decision D10; log entry 7): with destination 15 the register ends as the carry and the sum is
lost; no other register changes. -/
def Obligations.AddToRegister15KeepsOnlyTheCarry : Prop :=
  ∀ (y : RegIx) (s : State), ∃ t, exec (.add 15 y) s = .next t ∧
    (t.reg 15).toNat = ((s.reg 15).toNat + (s.reg y).toNat) / 256 ∧ ∀ r, r ≠ 15 → t.reg r = s.reg r

/-- 43_arith section 2 (R143, derived): register 15 as second operand is read before the carry replaces it. -/
def Obligations.AddOfRegister15ReadsTheOldFlag : Prop :=
  ∀ (x : RegIx) (s : State), x ≠ 15 → ∃ t, exec (.add x 15) s = .next t ∧
    t.reg x = s.reg x + s.reg 15 ∧ (t.reg 15).toNat = ((s.reg x).toNat + (s.reg 15).toNat) / 256

/-- 43_arith section 2 (R144, derived): ADD of a register to itself doubles it modulo 256, the carry its old top bit;
for register 15 only the carry stays. -/
def Obligations.AddToItselfDoubles : Prop :=
  ∀ (x : RegIx) (s : State), ∃ t, exec (.add x x) s = .next t ∧
    (x ≠ 15 → (t.reg x).toNat = 2 * (s.reg x).toNat % 256) ∧
    t.reg 15 = if (s.reg x).msb then 1 else 0

/-! ### The call stack -/

/-- R130 (capacity by the spec's decision D9; log entry 6): from an empty stack N CALLs in a row leave `sp = N` and
N return addresses while N <= 16, the seventeenth overflows, and a CALL met at capacity leaves the state unchanged. -/
def Obligations.NestedCallsFillExactlySixteenSlots : Prop :=
  (∀ (ns : List Imm12) (s : State), s.sp.val = 0 →
    (ns.length ≤ 16 → ∃ t, callAll ns s = .next t ∧ t.sp.val = ns.length ∧
      ∀ i : Fin 16, i.val < ns.length →
        t.slot i = (if i.val = 0 then s.pc else (ns.getD (i.val - 1) 0).setWidth 16) + 2) ∧
    (16 < ns.length → callAll ns s = .fault .stackOverflow)) ∧
  ∀ (s : State) (w : Word) (nnn : Imm12), s.status = .running → s.fetch = .ok w → decode w = .instr (.call nnn) →
    s.sp.val = 16 → run s = some (s, .err .stackOverflow)

/-- R131: RETURN underflows exactly at `sp = 0`, leaving the state unchanged; at `sp = 1` it leaves the stack empty. -/
def Obligations.ReturnUnderflowsExactlyAtZero : Prop :=
  ∀ s : State,
    (exec .ret s = .fault .stackUnderflow ↔ s.sp.val = 0) ∧
    (s.sp.val = 1 → ∃ t, exec .ret s = .next t ∧ t.sp.val = 0) ∧
    (s.status = .running → s.fetch = .ok 0x00EE → s.sp.val = 0 → run s = some (s, .err .stackUnderflow))

/-- R129: a CALL followed at once by a RETURN brings `pc` to the address after the CALL and `sp` back. -/
def Obligations.CallThenReturnResumesAfterTheCall : Prop :=
  ∀ (s t : State) (w : Word) (nnn : Imm12),
    s.fetch = .ok w → decode w = .instr (.call nnn) → step s = .next t → t.fetch = .ok 0x00EE →
    ∃ u, step t = .next u ∧ u.pc.toNat = s.pc.toNat + 2 ∧ u.sp = s.sp

/-- 42_control section 2 (the general form of R129, derived): the RETURN that matches a CALL, with `sp` above the CALL's
all the way between, brings `pc` to the address after the CALL. -/
def Obligations.MatchingReturnResumesAfterTheCall : Prop :=
  ∀ (s t u : State) (w : Word) (nnn : Imm12),
    s.fetch = .ok w → decode w = .instr (.call nnn) → step s = .next t →
    StepsAbove s.sp.val t u → u.status = .running → u.sp.val = s.sp.val + 1 → u.fetch = .ok 0x00EE →
    ∃ v, step u = .next v ∧ v.pc.toNat = s.pc.toNat + 2 ∧ v.sp = s.sp

/-- 10_state section 5: `sp` as a state machine: CALL takes it up when below 16, RETURN takes it down when above 0,
HALT and ADD leave it. -/
def Obligations.StackPointerStateMachine : Prop :=
  ∀ (i : Instr) (s t : State), exec i s = .next t →
    match i with
    | .call _ => s.sp.val < 16 ∧ t.sp.val = s.sp.val + 1
    | .ret => 0 < s.sp.val ∧ t.sp.val + 1 = s.sp.val
    | .halt => t.sp = s.sp
    | .add _ _ => t.sp = s.sp

/-! ### Rules of the whole machine -/

/-- 10_state section 3: only ADD changes a register, and after an ADD the flag register holds 0 or 1. -/
def Obligations.OnlyAddChangesRegisters : Prop :=
  ∀ (i : Instr) (s t : State), exec i s = .next t →
    ((∃ x y, i = .add x y) ∧ (t.reg 15 = 0 ∨ t.reg 15 = 1)) ∨ ((∀ x y, i ≠ .add x y) ∧ ∀ r, t.reg r = s.reg r)

/-- 10_state section 6: status goes from Running to Halted by HALT alone, and no step leads out of Halted. -/
def Obligations.OnlyHaltHalts : Prop :=
  ∀ s t : State, step s = .next t →
    s.status = .running ∧ (t.status = .halted ↔ s.fetch = .ok 0x0000)

/-- 42_control section 3 (R132, derived): CALL and RETURN are the only instructions that set `pc` to anything but
`pc + 2`. -/
def Obligations.OnlyCallAndReturnTransferControl : Prop :=
  ∀ (i : Instr) (s t : State), exec i s = .next t → t.pc ≠ s.pc + 2 → i = .ret ∨ ∃ nnn, i = .call nnn

/-- 10_state section 5: only CALL writes a slot, and only the one `sp` indexes. -/
def Obligations.OnlyCallWritesASlot : Prop :=
  ∀ (i : Instr) (s t : State) (k : Fin 16), exec i s = .next t → t.slot k ≠ s.slot k →
    k.val = s.sp.val ∧ ∃ nnn, i = .call nnn

/-- 20_memory section 1 and 10_state R24 item 5 (derived): memory is constant during a run. -/
def Obligations.RunKeepsMemory : Prop :=
  (∀ s t : State, step s = .next t → t.mem = s.mem) ∧
    ∀ (s t : State) (e : RunEnd), run s = some (t, e) → t.mem = s.mem

/-! ### Runs -/

/-- R107: `run` is the loop of steps: nothing on a halted core (the spec's decision D7), one step and the rest of the
run when the step has a next state, `Err` with the state kept when it faults. -/
def Obligations.RunIsTheLoopOfSteps : Prop :=
  ∀ s : State,
    (s.status = .halted → run s = some (s, .ok)) ∧
    (∀ t, step s = .next t → run s = run t) ∧
    (∀ f, step s = .fault f → run s = some (s, .err f))

/-- 70_reset section 8 (R198, derived): from every state, reachable or not, the run ends. -/
def Obligations.EveryRunEnds : Prop :=
  ∀ s : State, ∃ t e, run s = some (t, e)

/-- 40_step section 5 and 60_exceptions section 4: a run ends `Ok` in Halted, or `Err` in a Running state whose next
step is that fault; run again without a change of the host, it ends at once in the same way (R160, R106, derived). -/
def Obligations.RunEndsAsReported : Prop :=
  ∀ (s t : State) (e : RunEnd), run s = some (t, e) →
    (e = .ok → t.status = .halted) ∧ (∀ f, e = .err f → t.status = .running ∧ step t = .fault f) ∧
      run t = some (t, e)

/-- R155: a fault ends the step and the run at once, the state and `status = Running` as before the step, and the host
is answered `Err` with the kind and payload. -/
def Obligations.FaultChangesNothingAndIsReported : Prop :=
  ∀ (s : State) (f : Fault), step s = .fault f →
    s.status = .running ∧ run s = some (s, .err f) ∧ transact .run s = (s, .err f)

/-- 42_control section 3 (R132, derived): the path of a run does not depend on the registers. From two states that
agree on everything else, every step goes to states that agree again or raises the same fault, so the two runs take the
same path step for step and end in the same way. -/
def Obligations.RegistersDoNotSteerARun : Prop :=
  ∀ s s' : State, SameControl s s' →
    (∀ t, step s = .next t → ∃ t', step s' = .next t' ∧ SameControl t t') ∧
    (∀ f, step s = .fault f → step s' = .fault f) ∧
    ∀ t e, run s = some (t, e) → ∃ t', run s' = some (t', e) ∧ SameControl t t'

/-- 10_state section 5 (R18, derived): the contents of the dead slots are never read: from two states that differ in
them alone, every step goes to states that differ in dead slots alone or raises the same fault, and the two runs end in
the same way. -/
def Obligations.DeadSlotsAreNeverRead : Prop :=
  ∀ s s' : State, SameLive s s' →
    (∀ t, step s = .next t → ∃ t', step s' = .next t' ∧ SameLive t t') ∧
    (∀ f, step s = .fault f → step s' = .fault f) ∧
    ∀ t e, run s = some (t, e) → ∃ t', run s' = some (t', e) ∧ SameLive t t'

/-- R164 (codes by the spec's decisions D5 and D6; log entry 13): the two report outputs. -/
def Obligations.FaultReportOutputs : Prop :=
  RunEnd.faultCode .ok = 0 ∧ RunEnd.faultCode (.err .addressingFault) = 1 ∧
    RunEnd.faultCode (.err .stackOverflow) = 2 ∧ RunEnd.faultCode (.err .stackUnderflow) = 3 ∧
    (∀ w, RunEnd.faultCode (.err (.unsupportedOpcode w)) = 4 ∧ RunEnd.faultInsn (.err (.unsupportedOpcode w)) = w) ∧
    ∀ e : RunEnd, e.faultCode ≠ 4 → e.faultInsn = 0

/-! ### Reset and invariants -/

/-- R28: what reset leaves, in every piece of state; the default start is 0. -/
def Obligations.ResetZeroesEverything : Prop :=
  State.reset = State.resetAt 0 ∧
  ∀ (s : State) (p : Word), transact (.reset p) s = (State.resetAt p, .ok) ∧
    (∀ r, (State.resetAt p).reg r = 0) ∧ (∀ a, (State.resetAt p).mem.read a = 0) ∧
    (∀ k, (State.resetAt p).slot k = 0) ∧ (State.resetAt p).sp.val = 0 ∧ (State.resetAt p).pc = p ∧
    (State.resetAt p).status = .running

/-- 10_state section 11 (R29, derived): with nothing loaded, the first step is HALT. -/
def Obligations.ResetAndRunHaltsAtOnce : Prop :=
  run State.reset = some ((State.reset.setPc 2).setStatus .halted, .ok)

/-- 10_state section 8 (R24 items 3 and 4, derived): the reset states with `PC_START <= 4096` meet the invariants. The
canonical form of memory, the third clause of `State.inv`, is no part of R24: it is the model's own DESIGN CHOICE (log
entry 3). -/
def Obligations.ResetMeetsTheInvariants : Prop :=
  ∀ p : Word, p.toNat ≤ 4096 → (State.resetAt p).inv

/-- 10_state section 8 (R24 items 3 and 4, derived): every step keeps live return addresses in [2,4096] and
`pc <= 4096`. That it keeps memory canonical, the third clause of `State.inv`, is no part of R24: that form is the
model's own DESIGN CHOICE (log entry 3). -/
def Obligations.StepKeepsTheInvariants : Prop :=
  ∀ s t : State, s.inv → step s = .next t → t.inv

/-- 10_state section 8 (R24 items 3 and 4, derived): every host transaction keeps the invariants, a reset when its start
is at most 4096. The canonical form of memory, the third clause of `State.inv`, is no part of R24: it is the model's own
DESIGN CHOICE (log entry 3). -/
def Obligations.TransactionKeepsTheInvariants : Prop :=
  ∀ (s : State) (t : Transaction), s.inv → (∀ p, t = .reset p → p.toNat ≤ 4096) → (transact t s).1.inv

/-- 10_state section 8 (R24 items 3 and 4, derived): the invariants hold in every state reachable by steps and host
transactions. The canonical form of memory, the third clause of `State.inv`, is no part of R24: it is the model's own
DESIGN CHOICE (log entry 3). -/
def Obligations.ReachableStatesMeetTheInvariants : Prop :=
  ∀ s : State, Reachable s → s.inv

/-! ### The host's transactions -/

/-- R183: `set_register`, in range and out of range. -/
def Obligations.SetRegisterTransaction : Prop :=
  ∀ (index : Nat) (value : Byte) (s : State),
    (16 ≤ index → transact (.setRegister index value) s = (s, .err .addressingFault)) ∧
    ∀ i : RegIx, i.toNat = index → ∃ t, transact (.setRegister index value) s = (t, .ok) ∧
      (∀ r, t.reg r = if r = i then value else s.reg r) ∧ t.mem = s.mem ∧ t.pc = s.pc ∧ t.stack = s.stack ∧
      t.sp = s.sp ∧ t.status = s.status

/-- R184: `get_register` answers the register and changes nothing. -/
def Obligations.GetRegisterTransaction : Prop :=
  ∀ (index : Nat) (s : State),
    (16 ≤ index → transact (.getRegister index) s = (s, .err .addressingFault)) ∧
    ∀ i : RegIx, i.toNat = index → transact (.getRegister index) s = (s, .value (s.reg i))

/-- R185: `write_byte` writes the one byte, or faults and writes nothing. -/
def Obligations.WriteByteTransaction : Prop :=
  ∀ (address : Nat) (value : Byte) (s : State),
    (4096 ≤ address → transact (.writeByte address value) s = (s, .err .addressingFault)) ∧
    (address < 4096 → s.mem.wf → ∃ t, transact (.writeByte address value) s = (t, .ok) ∧
      (∀ a, t.mem.read a = if a = address then value else s.mem.read a) ∧ t.x = s.x ∧ t.pc = s.pc ∧
      t.stack = s.stack ∧ t.sp = s.sp ∧ t.status = s.status)

/-- R187: `read_byte` answers the byte and changes nothing. -/
def Obligations.ReadByteTransaction : Prop :=
  ∀ (address : Nat) (s : State),
    (4096 ≤ address → transact (.readByte address) s = (s, .err .addressingFault)) ∧
    (address < 4096 → transact (.readByte address) s = (s, .value (s.mem.read address)))

/-- R186 (form of the range by the spec's decision D12, checks first by D13; log entry 11): `load_range` overwrites the
bytes of the half-open range and no other, or faults and writes nothing. -/
def Obligations.LoadRangeTransaction : Prop :=
  ∀ (start stop : Nat) (bytes : List Byte) (s : State),
    (stop < start ∨ 4096 < stop ∨ stop - start ≠ bytes.length →
      transact (.loadRange start stop bytes) s = (s, .err .addressingFault)) ∧
    (start ≤ stop → stop ≤ 4096 → stop - start = bytes.length → s.mem.wf →
      ∃ t, transact (.loadRange start stop bytes) s = (t, .ok) ∧
        (∀ a, t.mem.read a = if start ≤ a ∧ a < stop then bytes.getD (a - start) 0 else s.mem.read a) ∧
        t.x = s.x ∧ t.pc = s.pc ∧ t.stack = s.stack ∧ t.sp = s.sp ∧ t.status = s.status)

/-- 20_memory section 9: a host write of the two bytes at `pc` is what the next fetch reads, nothing needed between. -/
def Obligations.HostLoadIsSeenByTheNextFetch : Prop :=
  ∀ (s : State) (hi lo : Byte), s.mem.wf → s.pc.toNat ≤ 4094 →
    ∃ t, transact (.loadRange s.pc.toNat (s.pc.toNat + 2) [hi, lo]) s = (t, .ok) ∧
      ∃ w : Word, t.fetch = .ok w ∧ w.toNat = hi.toNat * 256 + lo.toNat

/-- 70_reset section 2: no transaction other than `run` and reset changes `pc`, `sp`, the stack or the status. -/
def Obligations.OnlyRunAndResetChangeControlState : Prop :=
  ∀ (s : State) (t : Transaction), t ≠ .run → (∀ p, t ≠ .reset p) →
    (transact t s).1.pc = s.pc ∧ (transact t s).1.sp = s.sp ∧ (transact t s).1.stack = s.stack ∧
      (transact t s).1.status = s.status

/-- 40_step section 1: a word placed where the machine fetches is the word the next step runs, and nothing but memory,
status and a `pc` that no fetch succeeds at is changed for it (the model's own placing, log entry 14). -/
def Obligations.PlacedWordIsTheNextInstruction : Prop :=
  ∀ (s : State) (w : Word), s.mem.wf →
    ∃ t, s.withFetchWord 16 w.toNat = t ∧ t.fetch = .ok w ∧
      (∀ i, decode w = .instr i → step t = exec i t) ∧ (s.pc.toNat ≤ 4094 → t.pc = s.pc) ∧
      t.x = s.x ∧ t.stack = s.stack ∧ t.sp = s.sp ∧
      ∀ a, a ≠ t.pc.toNat → a ≠ t.pc.toNat + 1 → t.mem.read a = s.mem.read a

/-! ### Memory -/

/-- R42: the checked read of one byte and of two, on addresses of any size. -/
def Obligations.CheckedReadFaultsOutsideMemory : Prop :=
  ∀ (addr : Nat) (s : State),
    (4096 < addr + 1 → memRead1 addr s = .error .addressingFault) ∧
    (addr + 1 ≤ 4096 → memRead1 addr s = .ok (s.mem.read addr)) ∧
    (4096 < addr + 2 → memRead2 addr s = .error .addressingFault) ∧
    (addr + 2 ≤ 4096 → ∃ w, memRead2 addr s = .ok w ∧
      w.toNat = (s.mem.read addr).toNat * 256 + (s.mem.read (addr + 1)).toNat)

/-- R43 (a failing write writes nothing: the spec's decision D13): the checked write of a sequence of bytes, on
addresses of any size. -/
def Obligations.CheckedWriteOverwritesTheRange : Prop :=
  ∀ (addr : Nat) (bytes : List Byte) (s : State),
    (4096 < addr + bytes.length → memWrite addr bytes s = .error .addressingFault) ∧
    (addr + bytes.length ≤ 4096 → s.mem.wf → ∃ t, memWrite addr bytes s = .ok t ∧
      ∀ a, t.mem.read a =
        if addr ≤ a ∧ a < addr + bytes.length then bytes.getD (a - addr) 0 else s.mem.read a)

/-- 20_memory section 11: a memory is the function from address to byte it reads as: canonical memories that read alike
are equal (the list form is the model's, log entry 3). -/
def Obligations.CanonicalMemoriesThatReadAlikeAreEqual : Prop :=
  ∀ m n : Memory, m.wf → n.wf → (∀ a, m.read a = n.read a) → m = n
end

