-- ==== Sys2Proof/Laws/Memory.lean ====
section
/-! SUPPORT. Memory keeps its canonical form, and a read after a write. -/

namespace Sys2Proof.Machine

@[simp] theorem Memory.read_nil (a : Nat) : Memory.read [] a = 0 := rfl

theorem Memory.wf_nil : Memory.wf [] := by decide

theorem State.resetAt_mem_wf (p : Word) : (State.resetAt p).mem.wf := Memory.wf_nil

theorem State.reset_mem_wf : State.reset.mem.wf := Memory.wf_nil

theorem Memory.wf_tail {c : Host.Cell} {m : Memory} (h : Memory.wf (c :: m)) : Memory.wf m :=
  ⟨(List.pairwise_cons.1 h.1).2, fun d hd => h.2 d (List.mem_cons_of_mem c hd)⟩

/-- An address below every listed one holds 0. -/
theorem Memory.read_of_lt {m : Memory} {a : Nat} (h : ∀ c ∈ m, a < c.1) : m.read a = 0 := by
  induction m with
  | nil => rfl
  | cons c m ih =>
    have hc := h c List.mem_cons_self
    simp [Memory.read, Nat.ne_of_lt hc, ih fun d hd => h d (List.mem_cons_of_mem c hd)]

/-- What a write can list: the byte written, or what was listed before. -/
theorem Memory.mem_write {m : Memory} {a : Nat} {v : Byte} {c : Host.Cell} (h : c ∈ m.write a v) :
    c ∈ m ∨ (c = (a, v) ∧ v ≠ 0) := by
  induction m with
  | nil =>
    simp only [Memory.write] at h
    split at h <;> simp_all
  | cons d m ih =>
    simp only [Memory.write] at h
    split at h
    · split at h <;> simp_all
      tauto
    · split at h
      · split at h <;> simp_all
        tauto
      · rcases List.mem_cons.1 h with rfl | h
        · simp
        · rcases ih h with h | h
          · exact .inl (List.mem_cons_of_mem d h)
          · exact .inr h

/-- A write inside the memory keeps the canonical form. -/
theorem Memory.write_wf {m : Memory} {a : Nat} (v : Byte) (hm : m.wf) (ha : a < 4096) : (m.write a v).wf := by
  refine ⟨?_, fun c hc => ?_⟩
  · induction m with
    | nil => simp only [Memory.write]; split <;> simp
    | cons d m ih =>
      have hd := (List.pairwise_cons.1 hm.1).1
      have hp := (List.pairwise_cons.1 hm.1).2
      simp only [Memory.write]
      split
      · rename_i hlt
        split
        · exact hm.1
        · refine List.pairwise_cons.2 ⟨fun c hc => ?_, hm.1⟩
          rcases List.mem_cons.1 hc with rfl | hc
          · exact hlt
          · exact Nat.lt_trans hlt (hd c hc)
      · split
        · rename_i heq
          split
          · exact hp
          · exact List.pairwise_cons.2 ⟨fun c hc => heq ▸ hd c hc, hp⟩
        · refine List.pairwise_cons.2 ⟨fun c hc => ?_, ih (Memory.wf_tail hm)⟩
          rcases Memory.mem_write hc with hc | ⟨rfl, -⟩
          · exact hd c hc
          · show d.1 < a
            omega
  · rcases Memory.mem_write hc with hc | ⟨rfl, hv⟩
    · exact hm.2 c hc
    · exact ⟨ha, hv⟩

/-- A read after a write (R47): the byte written, and every other byte as it was. -/
theorem Memory.read_write {m : Memory} (a : Nat) (v : Byte) (b : Nat) (hm : m.wf) :
    (m.write a v).read b = if b = a then v else m.read b := by
  induction m with
  | nil =>
    simp only [Memory.write]
    split
    · rename_i hv
      simp [hv]
    · simp [Memory.read]
  | cons d m ih =>
    have hd := (List.pairwise_cons.1 hm.1).1
    simp only [Memory.write]
    split
    · rename_i hlt
      split
      · rename_i hv
        split
        · rename_i hba
          subst hba
          rw [hv]
          refine Memory.read_of_lt fun c hc => ?_
          rcases List.mem_cons.1 hc with rfl | hc
          · exact hlt
          · exact Nat.lt_trans hlt (hd c hc)
        · rfl
      · simp [Memory.read]
    · split
      · rename_i heq
        split
        · rename_i hv
          by_cases hb : b = a
          · simp [hb, hv, Memory.read_of_lt (fun c hc => heq ▸ hd c hc)]
          · simp [hb, Memory.read, heq ▸ hb]
        · by_cases hb : b = a <;> simp [Memory.read, hb, ← heq]
      · rename_i hlt hne
        simp only [Memory.read, ih (Memory.wf_tail hm)]
        by_cases hb : b = d.1
        · simp [hb, Ne.symm hne]
        · simp [hb]

theorem Memory.writeAll_wf {m : Memory} {a : Nat} (vs : List Byte) (hm : m.wf) (h : a + vs.length ≤ 4096) :
    (m.writeAll a vs).wf := by
  induction vs generalizing m a with
  | nil => exact hm
  | cons v vs ih =>
    simp only [List.length_cons] at h
    exact ih (Memory.write_wf v hm (by omega)) (by omega)

@[simp] theorem inMemory_iff (a n : Nat) : inMemory a n = true ↔ a + n ≤ 4096 := by
  simp [inMemory]

/-- The checked write keeps the canonical form. -/
theorem memWrite_wf {addr : Nat} {bytes : List Byte} {s t : State} (hs : s.mem.wf) (h : memWrite addr bytes s = .ok t) :
    t.mem.wf := by
  unfold memWrite at h
  split at h
  · rename_i hin
    cases h
    exact Memory.writeAll_wf bytes hs ((inMemory_iff _ _).1 hin)
  · cases h

/-- The bulk load keeps the canonical form. -/
theorem loadRange_wf {start stop : Nat} {bytes : List Byte} {s t : State} (hs : s.mem.wf)
    (h : loadRange start stop bytes s = .ok t) : t.mem.wf := by
  simp only [loadRange] at h
  split at h
  · cases h
  · split at h
    · cases h
    · split at h
      · cases h
      · cases h
        refine Memory.writeAll_wf bytes hs ?_
        simp only [Config.memSize] at *
        omega

/-- Placing an instruction word inside the memory keeps the canonical form. -/
theorem State.placeWord_wf {s : State} {addr : Nat} (w : Word) (hs : s.mem.wf) (h : addr + 2 ≤ 4096) :
    (s.placeWord addr w).mem.wf :=
  Memory.writeAll_wf (wordBytes w) hs h

theorem State.withFetchWord_wf {s : State} (nbits w : Nat) (hs : s.mem.wf) : (s.withFetchWord nbits w).mem.wf := by
  unfold State.withFetchWord
  by_cases h : inMemory s.pc.toNat 2
  · simp only [h, if_true]
    exact State.placeWord_wf _ hs ((inMemory_iff _ _).1 h)
  · simp only [h]
    exact State.placeWord_wf _ hs (show (0#16).toNat + 2 ≤ 4096 by decide)

end Sys2Proof.Machine
end

