-- ==== Sys2Proof/Laws/State.lean ====
section
/-! SUPPORT. One lemma per field per update of the state, and reading a register back. -/

namespace Sys2Proof.Machine

@[simp] theorem State.setPc_x (s : State) (t : Word) : (s.setPc t).x = s.x := rfl
@[simp] theorem State.setPc_mem (s : State) (t : Word) : (s.setPc t).mem = s.mem := rfl
@[simp] theorem State.setPc_pc (s : State) (t : Word) : (s.setPc t).pc = t := rfl
@[simp] theorem State.setPc_stack (s : State) (t : Word) : (s.setPc t).stack = s.stack := rfl
@[simp] theorem State.setPc_sp (s : State) (t : Word) : (s.setPc t).sp = s.sp := rfl
@[simp] theorem State.setPc_status (s : State) (t : Word) : (s.setPc t).status = s.status := rfl
@[simp] theorem State.setPc_reg (s : State) (t : Word) (r : RegIx) : (s.setPc t).reg r = s.reg r := rfl
@[simp] theorem State.setPc_slot (s : State) (t : Word) (i : Fin 16) : (s.setPc t).slot i = s.slot i := rfl

@[simp] theorem State.setStatus_x (s : State) (v : Status) : (s.setStatus v).x = s.x := rfl
@[simp] theorem State.setStatus_mem (s : State) (v : Status) : (s.setStatus v).mem = s.mem := rfl
@[simp] theorem State.setStatus_pc (s : State) (v : Status) : (s.setStatus v).pc = s.pc := rfl
@[simp] theorem State.setStatus_stack (s : State) (v : Status) : (s.setStatus v).stack = s.stack := rfl
@[simp] theorem State.setStatus_sp (s : State) (v : Status) : (s.setStatus v).sp = s.sp := rfl
@[simp] theorem State.setStatus_status (s : State) (v : Status) : (s.setStatus v).status = v := rfl
@[simp] theorem State.setStatus_reg (s : State) (v : Status) (r : RegIx) : (s.setStatus v).reg r = s.reg r := rfl
@[simp] theorem State.setStatus_slot (s : State) (v : Status) (i : Fin 16) : (s.setStatus v).slot i = s.slot i := rfl

@[simp] theorem State.setReg_mem (s : State) (r : RegIx) (v : Byte) : (s.setReg r v).mem = s.mem := rfl
@[simp] theorem State.setReg_pc (s : State) (r : RegIx) (v : Byte) : (s.setReg r v).pc = s.pc := rfl
@[simp] theorem State.setReg_stack (s : State) (r : RegIx) (v : Byte) : (s.setReg r v).stack = s.stack := rfl
@[simp] theorem State.setReg_sp (s : State) (r : RegIx) (v : Byte) : (s.setReg r v).sp = s.sp := rfl
@[simp] theorem State.setReg_status (s : State) (r : RegIx) (v : Byte) : (s.setReg r v).status = s.status := rfl
@[simp] theorem State.setReg_slot (s : State) (r : RegIx) (v : Byte) (i : Fin 16) :
    (s.setReg r v).slot i = s.slot i := rfl

@[simp] theorem State.setCarry_mem (s : State) (cy : BitVec 1) : (s.setCarry cy).mem = s.mem := rfl
@[simp] theorem State.setCarry_pc (s : State) (cy : BitVec 1) : (s.setCarry cy).pc = s.pc := rfl
@[simp] theorem State.setCarry_stack (s : State) (cy : BitVec 1) : (s.setCarry cy).stack = s.stack := rfl
@[simp] theorem State.setCarry_sp (s : State) (cy : BitVec 1) : (s.setCarry cy).sp = s.sp := rfl
@[simp] theorem State.setCarry_status (s : State) (cy : BitVec 1) : (s.setCarry cy).status = s.status := rfl
@[simp] theorem State.setCarry_slot (s : State) (cy : BitVec 1) (i : Fin 16) : (s.setCarry cy).slot i = s.slot i := rfl

/-- A register write read back: the register written, and every other one as it was (R11: no aliases). -/
@[simp] theorem State.reg_setReg (s : State) (r q : RegIx) (v : Byte) :
    (s.setReg r v).reg q = if q = r then v else s.reg q := by
  have hrq : r.toNat = q.toNat ↔ q = r := by rw [eq_comm, BitVec.toNat_inj]
  simp [State.reg, State.setReg, Vector.getElem_set, hrq]

@[simp] theorem State.reg_setCarry (s : State) (q : RegIx) (cy : BitVec 1) :
    (s.setCarry cy).reg q = if q = 15 then carryByte cy else s.reg q := by
  simp [State.setCarry]

@[simp] theorem State.resetAt_reg (p : Word) (r : RegIx) : (State.resetAt p).reg r = 0 := by
  simp [State.resetAt, State.reg]

@[simp] theorem State.resetAt_slot (p : Word) (i : Fin 16) : (State.resetAt p).slot i = 0 := by
  simp [State.resetAt, State.slot]

/-- A state is its fields: two states agree when their registers, slots and other fields do. -/
theorem State.ext_reads {s t : State} (hx : ∀ r, s.reg r = t.reg r) (hm : s.mem = t.mem) (hp : s.pc = t.pc)
    (hk : ∀ i, s.slot i = t.slot i) (hs : s.sp = t.sp) (hst : s.status = t.status) : s = t := by
  obtain ⟨x, m, p, k, sp, st⟩ := s
  obtain ⟨x', m', p', k', sp', st'⟩ := t
  simp only at hm hp hs hst
  subst hm hp hs hst
  have hx' : x = x' := Vector.ext fun i hi => by
    have h := hx (BitVec.ofNat 4 i)
    simpa [State.reg, Nat.mod_eq_of_lt hi] using h
  have hk' : k = k' := Vector.ext fun i hi => hk ⟨i, hi⟩
  rw [hx', hk']

end Sys2Proof.Machine
end

