-- ==== Sys2Proof/Laws/Ops.lean ====
section
/-! SUPPORT. For each shared operation, once, everything it can do; and the inversion of a step. -/

namespace Sys2Proof.Machine

/-- Everything `push` can answer with a state (R125). -/
theorem State.push_eq_ok {s t : State} {v : Word} :
    s.push v = .ok t ↔
      ∃ h : s.sp.val < 16, t = { s with stack := s.stack.set s.sp.val v h, sp := ⟨s.sp.val + 1, by omega⟩ } := by
  unfold State.push
  split
  · rename_i h
    simp only [Except.ok.injEq]
    exact ⟨fun e => ⟨h, e.symm⟩, fun ⟨_, e⟩ => e.symm⟩
  · rename_i h
    simp only [reduceCtorEq, false_iff]
    exact fun ⟨h', _⟩ => h h'

/-- Everything `push` can answer without one. -/
theorem State.push_eq_error {s : State} {v : Word} {f : Fault} :
    s.push v = .error f ↔ s.sp.val = 16 ∧ f = .stackOverflow := by
  unfold State.push
  split
  · rename_i h
    simp only [Config.stackDepth] at h
    simp only [reduceCtorEq, false_iff]
    omega
  · rename_i h
    simp only [Config.stackDepth] at h
    simp only [Except.error.injEq]
    constructor
    · rintro rfl
      exact ⟨by omega, rfl⟩
    · exact fun ⟨_, e⟩ => e.symm

/-- Everything `pop` can answer with a value (R126). -/
theorem State.pop_eq_ok {s t : State} {v : Word} :
    s.pop = .ok (v, t) ↔
      ∃ h : 0 < s.sp.val, v = s.slot ⟨s.sp.val - 1, by omega⟩ ∧ t = { s with sp := ⟨s.sp.val - 1, by omega⟩ } := by
  unfold State.pop
  split
  · rename_i h
    simp only [Except.ok.injEq, Prod.mk.injEq, State.slot]
    exact ⟨fun ⟨a, b⟩ => ⟨h, a.symm, b.symm⟩, fun ⟨_, a, b⟩ => ⟨a.symm, b.symm⟩⟩
  · rename_i h
    simp only [reduceCtorEq, false_iff]
    exact fun ⟨h', _⟩ => h h'

/-- Everything `pop` can answer without one. -/
theorem State.pop_eq_error {s : State} {f : Fault} : s.pop = .error f ↔ s.sp.val = 0 ∧ f = .stackUnderflow := by
  unfold State.pop
  split
  · simp only [reduceCtorEq, false_iff]
    omega
  · simp only [Except.error.injEq]
    constructor
    · rintro rfl
      exact ⟨by omega, rfl⟩
    · exact fun ⟨_, e⟩ => e.symm

/-- What a successful fetch is (R101, R42). -/
theorem State.fetch_eq_ok {s : State} {w : Word} :
    s.fetch = .ok w ↔
      s.pc.toNat ≤ 4094 ∧ w = joinBytes (s.mem.read s.pc.toNat) (s.mem.read (s.pc.toNat + 1)) := by
  unfold State.fetch memRead2
  split
  · rename_i h
    rw [inMemory_iff] at h
    simp only [Except.ok.injEq]
    exact ⟨fun e => ⟨by omega, e.symm⟩, fun ⟨_, e⟩ => e.symm⟩
  · rename_i h
    rw [inMemory_iff] at h
    simp only [reduceCtorEq, false_iff]
    omega

/-- What a failing fetch is. -/
theorem State.fetch_eq_error {s : State} {f : Fault} :
    s.fetch = .error f ↔ 4094 < s.pc.toNat ∧ f = .addressingFault := by
  unfold State.fetch memRead2
  split
  · rename_i h
    rw [inMemory_iff] at h
    simp only [reduceCtorEq, false_iff]
    omega
  · rename_i h
    rw [inMemory_iff] at h
    simp only [Except.error.injEq]
    constructor
    · rintro rfl
      exact ⟨by omega, rfl⟩
    · exact fun ⟨_, e⟩ => e.symm

/-- The range check of a host index (R13). -/
theorem regIndex_eq_ok {index : Nat} {i : RegIx} : regIndex index = .ok i ↔ i.toNat = index := by
  unfold regIndex
  split
  · rename_i h
    simp only [Except.ok.injEq]
    constructor
    · rintro rfl
      simp
    · rintro rfl
      simp
  · rename_i h
    have := i.isLt
    simp only [Config.nRegs] at h
    simp only [reduceCtorEq, false_iff]
    omega

theorem execHalt_eq (s : State) : execHalt s = .next ((s.setPc s.npc).setStatus .halted) := rfl

theorem execAdd_eq (x y : RegIx) (s : State) :
    execAdd x y s =
      .next (((s.setReg x (add8 (s.reg x) (s.reg y)).1).setCarry (add8 (s.reg x) (s.reg y)).2).setPc s.npc) := rfl

/-- Inversion of RETURN's next state. -/
theorem execRet_eq_next {s t : State} :
    execRet s = .next t ↔ ∃ v u, s.pop = .ok (v, u) ∧ t = u.setPc v := by
  unfold execRet
  split
  · rename_i v u h
    simp only [Host.Outcome.next.injEq, h, Except.ok.injEq, Prod.mk.injEq]
    exact ⟨fun e => ⟨v, u, ⟨rfl, rfl⟩, e.symm⟩, fun ⟨_, _, ⟨a, b⟩, e⟩ => by rw [e, a, b]⟩
  · rename_i f h
    simp [raise, h]

/-- Inversion of CALL's next state. -/
theorem execCall_eq_next {s t : State} {nnn : Imm12} :
    execCall nnn s = .next t ↔ ∃ u, s.push s.npc = .ok u ∧ t = u.setPc (callTarget nnn) := by
  unfold execCall
  split
  · rename_i u h
    simp only [Host.Outcome.next.injEq, h, Except.ok.injEq]
    exact ⟨fun e => ⟨u, rfl, e.symm⟩, fun ⟨_, a, e⟩ => by rw [e, a]⟩
  · rename_i f h
    simp [raise, h]

/-- No meaning refuses. -/
theorem exec_ne_refused (i : Instr) (s : State) (r : Refusal) : exec i s ≠ .refused r := by
  cases i with
  | halt => simp [exec, execHalt]
  | ret => simp only [exec, execRet]; split <;> simp [raise]
  | call nnn => simp only [exec, execCall]; split <;> simp [raise]
  | add x y => simp [exec, execAdd]

/-- Inversion of a step with a next state: it ran a fetched and decoded instruction. -/
theorem step_next_inv {s t : State} (h : step s = .next t) :
    s.status = .running ∧ ∃ w i, s.fetch = .ok w ∧ decode w = .instr i ∧ exec i s = .next t := by
  unfold step at h
  split at h
  · simp [noStep] at h
  · rename_i hst
    split at h
    · simp [raise] at h
    · rename_i w hw
      split at h
      · rename_i i hi
        exact ⟨hst, w, i, hw, hi, h⟩
      · simp [raiseUnsupported, raise] at h

end Sys2Proof.Machine
end

