-- ==== Sys2Proof/Laws/PerInstr.lean ====
section
/-! SUPPORT. Statements made of every instruction, one lemma per constructor. -/

namespace Sys2Proof.Laws.OwnRow

/-- The encoding of an instruction selects its own row of the opcode map and no other (R75, R76). -/
def Statement (i : Instr) : Prop := ∀ r ∈ opcodeMap, r.selects (encode i) = decide (r = i.row)

theorem halt : Statement .halt := by unfold Statement; decide

theorem ret : Statement .ret := by unfold Statement; decide

theorem call (nnn : Imm12) : Statement (.call nnn) := by
  revert nnn; unfold Statement; decide +kernel

theorem add (x y : RegIx) : Statement (.add x y) := by
  revert x y; unfold Statement; decide +kernel

end Sys2Proof.Laws.OwnRow
end

