-- ==== Sys2Proof/Tests/Slice0.lean ====
section
/-! SUPPORT. Tests of the model, with the expected results of spec/95_test_vectors.md (the vector's name in each
comment), and one witness per statement that has hypotheses. -/

namespace Sys2Proof.Tests

open Sys2Proof Sys2Proof.Machine

/-! ### Well-formedness: each check refuses an ill-formed term -/

/-- 95 section 2.1, the nearest words that are none: beside HALT, RETURN, CALL and ADD. -/
theorem test_illegal_words_refused :
    legalWord 0x0001 = false ∧ legalWord 0x0100 = false ∧ legalWord 0x00EF = false ∧ legalWord 0x01EE = false ∧
      legalWord 0x1000 = false ∧ legalWord 0x3000 = false ∧ legalWord 0x8013 = false ∧ legalWord 0x9014 = false := by
  decide

/-- R77: the four forms at the edges of their operands are legal, and their instructions well-formed. No term of Instr
is ill-formed: its operand types hold exactly what the fields hold (R13). -/
theorem test_legal_words_accepted :
    legalWord 0x0000 = true ∧ legalWord 0x00EE = true ∧ legalWord 0x2FFF = true ∧ legalWord 0x8FF4 = true ∧
      (Instr.call 0xFFF).wellFormed = true ∧ (Instr.add 15 15).wellFormed = true := by
  decide

/-- The canonical form of memory refuses two addresses out of order, an address twice, a zero byte listed, and an
address outside the memory. -/
theorem test_ill_formed_memories_refused :
    ¬ Memory.wf [(2, 1), (1, 1)] ∧ ¬ Memory.wf [(1, 1), (1, 2)] ∧ ¬ Memory.wf [(1, 0)] ∧ ¬ Memory.wf [(4096, 1)] ∧
      Memory.wf [(1, 1), (4095, 2)] := by
  decide

/-! ### Decoding: words written out bit by bit from the patterns of R75 -/

theorem test_decode_halt : decode 0b0000000000000000 = .instr .halt := by decide
theorem test_decode_return : decode 0b0000000011101110 = .instr .ret := by decide
/-- 0010 nnnn nnnn nnnn with nnn = 1010 0101 0011. -/
theorem test_decode_call : decode 0b0010101001010011 = .instr (.call 0b101001010011) := by decide
/-- 1000 xxxx yyyy 0100 with x = 1010, y = 1011 (95 section 2.1: 0x8AB4). -/
theorem test_decode_add : decode 0b1000101010110100 = .instr (.add 0b1010 0b1011) := by decide
/-- 95 section 2.1: illegal words carry themselves. -/
theorem test_decode_unsupported :
    decode 0x00FE = .unsupported 0x00FE ∧ decode 0x801E = .unsupported 0x801E ∧ decode 0xFFFF = .unsupported 0xFFFF := by
  decide
/-- FE-1: the bytes 21 00 are the word 0x2100; what follows is handed back; one byte is no instruction. -/
theorem test_decode_bytes :
    decodeBytes [0x21, 0x00, 0x55] = .ok (.call 0x100, [0x55]) ∧ decodeBytes [0x21] = .error .truncated ∧
      decodeBytes [0x00, 0xE0] = .error (.unsupported 0x00E0) := by
  decide +kernel
theorem test_decode_table_word :
    decodeTableWord 16 0x0000 = some .halt ∧ decodeTableWord 16 0x00EE = some .ret ∧
      decodeTableWord 16 0x2000 = some (.call 0) ∧ decodeTableWord 16 0x8004 = some (.add 0 0) ∧
      decodeTableWord 16 0x8005 = none := by
  decide

/-! ### One step of each instruction -/

/-- The reset state with `pc`, `sp` and the word at `pc`. -/
def at_ (pc : Word) (sp : Fin 17) (w : Nat) : State := ({ State.reset with sp := sp, pc := pc } : State).withFetchWord 16 w

/-- A view of a step: what it answers, through a reader. -/
def after {α : Type} (s : State) (view : State → α) : Option α :=
  match step s with
  | .next t => some (view t)
  | _ => none

/-- The fault a step raises. -/
def faultOf (s : State) : Option Fault :=
  match step s with
  | .fault f => some f
  | _ => none

/-- HA-2. -/
theorem test_halt_in_subroutine :
    after ((at_ 4 1 0x0000).setReg 15 1) (fun t => (t.pc, t.status, t.sp, t.reg 15)) = some (6, .halted, 1, 1) := by
  decide
/-- FE-3: at the last window. -/
theorem test_halt_at_top : after (at_ 4094 0 0x0000) (fun t => (t.pc, t.status)) = some (4096, .halted) := by decide
/-- CA-4: the pushed address needs 13 bits. -/
theorem test_call_at_top :
    after (at_ 0xFFE 1 0x2010) (fun t => (t.pc, t.sp, t.slot 1, t.slot 0)) = some (0x010, 2, 0x1000, 0) := by decide
/-- CA-6 and CA-7: the last slot is usable, the seventeenth CALL is not. -/
theorem test_call_at_capacity :
    after (at_ 0x040 15 0x2044) (fun t => (t.slot 15, t.sp, t.pc)) = some (0x0042, 16, 0x044) ∧
      faultOf (at_ 0x040 16 0x2044) = some .stackOverflow := by
  decide
/-- R-2: the top slot, not another; the popped slot is kept. -/
theorem test_return_takes_the_top :
    after { at_ 0x022 2 0x00EE with stack := (at_ 0 0 0).stack.set 0 2 |>.set 1 0x14 }
      (fun t => (t.sp, t.pc, t.slot 0, t.slot 1)) = some (1, 0x014, 2, 0x14) := by
  decide
/-- R-3. -/
theorem test_return_underflows : faultOf (at_ 0 0 0x00EE) = some .stackUnderflow := by decide
/-- AD-5: the destination is the first operand. -/
theorem test_add_destination :
    after (((at_ 0x100 0 0x8104).setReg 0 200).setReg 1 100) (fun t => (t.reg 1, t.reg 0, t.reg 15, t.pc)) =
      some (44, 200, 1, 0x102) := by
  decide
/-- AD-9 and AD-11: destination 15 keeps only the carry; source 15 is read before it is written. -/
theorem test_add_register_15 :
    after (((at_ 0 0 0x8F14).setReg 15 3).setReg 1 4) (fun t => t.reg 15) = some 0 ∧
      after (((at_ 0 0 0x80F4).setReg 0 255).setReg 15 1) (fun t => (t.reg 0, t.reg 15)) = some (0, 1) := by
  decide

/-! ### Fetch, illegal words, reset -/

/-- FE-2: an odd address. -/
theorem test_fetch_odd : after (((at_ 0x101 0 0x8014).setReg 0 7).setReg 1 8) (fun t => (t.reg 0, t.pc)) = some (15, 0x103) := by
  decide
/-- FE-4, FE-5, FE-6: no window, no wrap. -/
theorem test_fetch_faults :
    faultOf (State.resetAt 4095) = some .addressingFault ∧ faultOf (State.resetAt 4096) = some .addressingFault ∧
      faultOf (State.resetAt 0xFFFF) = some .addressingFault := by
  decide
/-- U-1 and U-3. -/
theorem test_unsupported :
    faultOf (at_ 2 0 0x00E0) = some (.unsupportedOpcode 0x00E0) ∧
      faultOf (at_ 0 0 0x1200) = some (.unsupportedOpcode 0x1200) := by
  decide
/-- HA-1, P11: with nothing loaded the first step is HALT. -/
theorem test_reset_step : after State.reset (fun t => (t.pc, t.status)) = some (2, .halted) := by decide

/-! ### The host's transactions -/

/-- I-1 to I-3. -/
theorem test_registers :
    session [.setRegister 15 0xAB, .getRegister 15, .setRegister 16 1, .getRegister 65536] State.reset =
      (State.reset.setReg 15 0xAB, [.ok, .value 0xAB, .err .addressingFault, .err .addressingFault]) := by
  decide
/-- I-5 and I-6. -/
theorem test_bytes :
    (session [.writeByte 4095 0x5A, .readByte 4095, .writeByte 4096 1] State.reset).2 =
      [.ok, .value 0x5A, .err .addressingFault] := by
  decide
/-- I-7 to I-12. -/
theorem test_load_range_bounds :
    (session [.loadRange 4094 4096 [1, 2], .loadRange 4095 4097 [1, 2], .loadRange 0 4 [1, 2, 3], .loadRange 0 2 [1, 2, 3],
      .loadRange 8 8 [], .loadRange 9 8 []] State.reset).2 =
      [.ok, .err .addressingFault, .err .addressingFault, .err .addressingFault, .ok, .err .addressingFault] := by
  decide
/-- I-13, and a zero written over a byte leaves it unlisted. -/
theorem test_load_range_overwrites :
    (session [.loadRange 0 4 [1, 2, 3, 4], .loadRange 2 4 [9, 0]] State.reset).1.mem = [(0, 1), (1, 2), (2, 9)] := by
  decide
/-- U-1 and U-4: an illegal word, then recovery by rewriting it. -/
theorem test_recovery :
    session [.loadRange 2 4 [0x00, 0xE0], .run, .loadRange 2 4 [0, 0], .run] (State.resetAt 2) =
      (((State.resetAt 2).setPc 4).setStatus .halted, [.ok, .err (.unsupportedOpcode 0x00E0), .ok, .ok]) := by
  decide +kernel

/-! ### Witnesses: hypotheses of the statements, met together -/

theorem witness_EncodeAfterDecodeIsIdentity : decode 0x8FF4 = .instr (.add 15 15) := by decide

theorem witness_OpcodeRowsAreDisjoint :
    callRow ∈ opcodeMap ∧ callRow.selects 0x2FFF = true ∧ haltRow ∈ opcodeMap ∧ haltRow.selects 0 = true := by decide

theorem witness_StepRunsDecodedInstruction :
    (at_ 4094 0 0x2FFF).status = .running ∧ (at_ 4094 0 0x2FFF).fetch = .ok 0x2FFF ∧
      decode 0x2FFF = .instr (.call 0xFFF) := by
  decide

theorem witness_StepIsTheSpecBlock :
    (at_ 4094 16 0x8FF4).status = .running ∧ (State.resetAt 4095).status = .running ∧
      specStep (State.resetAt 4095) = .fault .addressingFault :=
  ⟨by decide, by decide, rfl⟩

theorem witness_FetchReadsBigEndianWindow :
    (State.resetAt 4094).pc.toNat ≤ 4094 ∧ 4094 < (State.resetAt 4095).pc.toNat ∧
      (State.resetAt 4095).status = .running := by
  decide

theorem witness_AdvanceDoesNotWrap : (State.resetAt 4094).fetch = .ok 0 := by decide

theorem witness_OnlyAHaltedCoreHasNoStep :
    (State.reset.setStatus .halted).status = .halted ∧ State.reset.status = .running := by decide

/-- Each way to fault of the equivalence, at its boundary. -/
theorem witness_StepFaultsExactlyWhen :
    ((State.resetAt 4095).status = .running ∧ 4094 < (State.resetAt 4095).pc.toNat) ∧
      ((at_ 0 16 0x2000).status = .running ∧ (at_ 0 16 0x2000).fetch = .ok 0x2000 ∧
        decode 0x2000 = .instr (.call 0) ∧ (at_ 0 16 0x2000).sp.val = 16) ∧
      ((at_ 0 0 0x00EE).fetch = .ok 0x00EE ∧ decode 0x00EE = .instr .ret ∧ (at_ 0 0 0x00EE).sp.val = 0) ∧
      ((at_ 0 0 0x8005).fetch = .ok 0x8005 ∧ legalWord 0x8005 = false) := by
  decide

theorem witness_IllegalWordRaisesUnsupportedOpcode :
    (at_ 4094 0 0x00EF).status = .running ∧ (at_ 4094 0 0x00EF).fetch = .ok 0x00EF ∧ legalWord 0x00EF = false ∧
      faultOf (at_ 4094 0 0x00EF) = some (.unsupportedOpcode 0x00EF) := by
  decide

theorem witness_CallPushesAndJumps :
    (at_ 0 0 0x2000).sp.val = (0 : Fin 16).val ∧ (at_ 0 15 0x2000).sp.val = (15 : Fin 16).val ∧
      (at_ 0 16 0x2000).sp.val = 16 := by
  decide

theorem witness_ReturnPopsTheTopSlot :
    (at_ 0 1 0x00EE).sp.val = (0 : Fin 16).val + 1 ∧ (at_ 0 16 0x00EE).sp.val = (15 : Fin 16).val + 1 ∧
      (at_ 0 0 0x00EE).sp.val = 0 := by
  decide

theorem witness_AddOfRegister15ReadsTheOldFlag : (14 : RegIx) ≠ 15 := by decide

theorem witness_AddToItselfDoubles : (0 : RegIx) ≠ 15 := by decide

theorem witness_NestedCallsFillExactlySixteenSlots :
    State.reset.sp.val = 0 ∧ (List.replicate 16 (0 : Imm12)).length ≤ 16 ∧ 16 < (List.replicate 17 (0 : Imm12)).length ∧
      (at_ 0 16 0x2000).status = .running ∧ (at_ 0 16 0x2000).fetch = .ok 0x2000 ∧
      decode 0x2000 = .instr (.call 0) ∧ (at_ 0 16 0x2000).sp.val = 16 := by
  decide

theorem witness_ReturnUnderflowsExactlyAtZero :
    (at_ 0 1 0x00EE).sp.val = 1 ∧ (at_ 0 0 0x00EE).status = .running ∧ (at_ 0 0 0x00EE).fetch = .ok 0x00EE ∧
      (at_ 0 0 0x00EE).sp.val = 0 := by
  decide

/-- CALL 0x010 at 0 with a RETURN at 0x010 (CA-5), before and after the CALL. -/
def callCase : State := { at_ 0 0 0x2010 with mem := [(0, 0x20), (1, 0x10), (0x11, 0xEE)] }
def calledCase : State := { callCase with pc := 0x010, sp := 1, stack := callCase.stack.set 0 2 }

theorem callCase_step : step callCase = .next calledCase := rfl

theorem witness_CallThenReturnResumesAfterTheCall :
    callCase.fetch = .ok 0x2010 ∧ decode 0x2010 = .instr (.call 0x010) ∧ calledCase.fetch = .ok 0x00EE ∧
      step callCase = .next calledCase :=
  ⟨by decide, by decide, by decide, callCase_step⟩

/-- The same with an ADD at 0x010 and the RETURN at 0x012: the state after the CALL and after the ADD. -/
def nestedCase : State := { callCase with mem := [(0, 0x20), (1, 0x10), (0x10, 0x80), (0x11, 0x14), (0x13, 0xEE)] }
def nestedCalled : State := { nestedCase with pc := 0x010, sp := 1, stack := nestedCase.stack.set 0 2 }
def nestedInner : State := { nestedCalled with pc := 0x012 }

theorem witness_MatchingReturnResumesAfterTheCall :
    nestedCase.fetch = .ok 0x2010 ∧ decode 0x2010 = .instr (.call 0x010) ∧ step nestedCase = .next nestedCalled ∧
      StepsAbove nestedCase.sp.val nestedCalled nestedInner ∧ nestedInner.status = .running ∧
      nestedInner.sp.val = nestedCase.sp.val + 1 ∧ nestedInner.fetch = .ok 0x00EE :=
  ⟨by decide, by decide, rfl, .step _ _ _ (by decide) rfl (.here _ (by decide)), by decide, by decide, by decide⟩

/-- A next state of each instruction. -/
theorem witness_StackPointerStateMachine :
    (∃ t, exec .halt State.reset = .next t) ∧ (∃ t, exec .ret (at_ 0 1 0x00EE) = .next t) ∧
      (∃ t, exec (.call 0xFFF) (at_ 0 15 0x2FFF) = .next t) ∧ ∃ t, exec (.add 15 15) State.reset = .next t :=
  ⟨⟨_, rfl⟩, ⟨_, rfl⟩, ⟨_, rfl⟩, ⟨_, rfl⟩⟩

theorem witness_OnlyAddChangesRegisters :
    (∃ t, exec (.add 0 15) State.reset = .next t) ∧ ∃ t, exec .halt (State.reset.setReg 15 0xAB) = .next t :=
  ⟨⟨_, rfl⟩, ⟨_, rfl⟩⟩

theorem witness_OnlyHaltHalts :
    (∃ t, step State.reset = .next t) ∧ ∃ t, step callCase = .next t := ⟨⟨_, rfl⟩, ⟨_, callCase_step⟩⟩

theorem witness_OnlyCallAndReturnTransferControl :
    exec (.call 0x010) callCase = .next calledCase ∧ calledCase.pc ≠ callCase.pc + 2 := ⟨rfl, by decide⟩

theorem witness_OnlyCallWritesASlot :
    exec (.call 0x010) callCase = .next calledCase ∧ calledCase.slot 0 ≠ callCase.slot 0 := ⟨rfl, by decide⟩

theorem run_callCase : run callCase = some (({ callCase with pc := 4, stack := calledCase.stack } : State).setStatus .halted, .ok) := by
  decide +kernel

theorem run_fault_case : run (at_ 0 0 0x00E0) = some (at_ 0 0 0x00E0, .err (.unsupportedOpcode 0x00E0)) := by
  decide +kernel

theorem witness_RunKeepsMemory : step callCase = .next calledCase ∧ (run callCase).isSome = true :=
  ⟨callCase_step, by rw [run_callCase]; rfl⟩

theorem witness_RunIsTheLoopOfSteps :
    (State.reset.setStatus .halted).status = .halted ∧ step callCase = .next calledCase ∧
      step (at_ 0 0 0x00E0) = .fault (.unsupportedOpcode 0x00E0) :=
  ⟨rfl, callCase_step, rfl⟩

theorem witness_RunEndsAsReported :
    (∃ t, run callCase = some (t, .ok)) ∧ ∃ t, run (at_ 0 0 0x00E0) = some (t, .err (.unsupportedOpcode 0x00E0)) :=
  ⟨⟨_, run_callCase⟩, ⟨_, run_fault_case⟩⟩

theorem witness_FaultChangesNothingAndIsReported : step (State.resetAt 4095) = .fault .addressingFault := rfl

theorem witness_RegistersDoNotSteerARun :
    SameControl callCase (callCase.setReg 3 7) ∧ callCase ≠ callCase.setReg 3 7 ∧ step callCase = .next calledCase ∧
      (run callCase).isSome = true ∧ SameControl (State.resetAt 4095) ((State.resetAt 4095).setReg 3 7) ∧
      step (State.resetAt 4095) = .fault .addressingFault :=
  ⟨⟨rfl, rfl, rfl, rfl, rfl⟩, by decide, callCase_step, by rw [run_callCase]; rfl, ⟨rfl, rfl, rfl, rfl, rfl⟩, rfl⟩

/-- `callCase` with another value in the dead slot 0. -/
def deadCase : State := { callCase with stack := callCase.stack.set 0 0x1234 }

theorem witness_DeadSlotsAreNeverRead :
    SameLive callCase deadCase ∧ callCase ≠ deadCase ∧ step callCase = .next calledCase ∧
      (run callCase).isSome = true ∧
      SameLive (State.resetAt 4095) { State.resetAt 4095 with stack := deadCase.stack } ∧
      step (State.resetAt 4095) = .fault .addressingFault :=
  ⟨⟨rfl, rfl, rfl, rfl, rfl, by decide⟩, by decide, callCase_step, by rw [run_callCase]; rfl,
    ⟨rfl, rfl, rfl, rfl, rfl, by decide⟩, rfl⟩

theorem witness_FaultReportOutputs : (RunEnd.err .stackUnderflow).faultCode ≠ 4 ∧ RunEnd.ok.faultCode ≠ 4 := by decide

theorem witness_ResetMeetsTheInvariants : (4096 : Word).toNat ≤ 4096 := by decide

/-- A RETURN in the last window with the largest return address in the live slot: the invariants and a next state. -/
def edgeCase : State := { at_ 4094 1 0x00EE with stack := State.reset.stack.set 0 4096 }

theorem witness_StepKeepsTheInvariants : edgeCase.inv ∧ ∃ t, step edgeCase = .next t :=
  ⟨by unfold State.inv State.liveSlotsInRange; decide, ⟨_, rfl⟩⟩

theorem witness_TransactionKeepsTheInvariants :
    edgeCase.inv ∧ ∀ p, Transaction.reset 4096 = .reset p → p.toNat ≤ 4096 :=
  ⟨witness_StepKeepsTheInvariants.1, fun p h => by cases h; decide⟩

theorem witness_ReachableStatesMeetTheInvariants : Reachable (State.resetAt 4096) := .reset _ (by decide)

theorem witness_SetRegisterTransaction : 16 ≤ 16 ∧ (15 : RegIx).toNat = 15 ∧ (0 : RegIx).toNat = 0 := by decide

theorem witness_GetRegisterTransaction : 16 ≤ 16 ∧ (15 : RegIx).toNat = 15 ∧ (0 : RegIx).toNat = 0 := by decide

theorem witness_WriteByteTransaction : 4096 ≤ 4096 ∧ 4095 < 4096 ∧ callCase.mem.wf := by decide

theorem witness_ReadByteTransaction : 4096 ≤ 4096 ∧ 4095 < 4096 := by decide

/-- Each clause at a boundary: start above stop, stop above the memory, a length that differs; the empty range, the top
of memory. -/
theorem witness_LoadRangeTransaction :
    (8 < 9) ∧ (4096 < 4097) ∧ (4 - 0 ≠ ([1, 2, 3] : List Byte).length) ∧
      (8 ≤ 8 ∧ 8 - 8 = ([] : List Byte).length) ∧
      (4094 ≤ 4096 ∧ 4096 ≤ 4096 ∧ 4096 - 4094 = ([1, 2] : List Byte).length) ∧ callCase.mem.wf := by
  decide

theorem witness_HostLoadIsSeenByTheNextFetch :
    (State.resetAt 4094).mem.wf ∧ (State.resetAt 4094).pc.toNat ≤ 4094 := by decide

theorem witness_OnlyRunAndResetChangeControlState :
    Transaction.writeByte 0 1 ≠ .run ∧ ∀ p, Transaction.writeByte 0 1 ≠ .reset p :=
  ⟨by decide, fun _ h => by cases h⟩

theorem witness_PlacedWordIsTheNextInstruction :
    State.reset.mem.wf ∧ decode 0x2FFF = .instr (.call 0xFFF) ∧ (State.resetAt 4094).pc.toNat ≤ 4094 ∧
      (5 : Nat) ≠ (State.reset.withFetchWord 16 0x2FFF).pc.toNat := by
  decide

theorem witness_CheckedReadFaultsOutsideMemory : 4096 < 4096 + 1 ∧ 4095 + 1 ≤ 4096 ∧ 4096 < 4095 + 2 ∧ 4094 + 2 ≤ 4096 := by
  decide

theorem witness_CheckedWriteOverwritesTheRange :
    4096 < 4095 + ([1, 2] : List Byte).length ∧ 4094 + ([1, 2] : List Byte).length ≤ 4096 ∧ callCase.mem.wf := by
  decide

theorem witness_CanonicalMemoriesThatReadAlikeAreEqual :
    Memory.wf ((Memory.write [] 5 7).write 5 0) ∧ Memory.wf [] ∧ ∀ a, Memory.read ((Memory.write [] 5 7).write 5 0) a = Memory.read [] a :=
  ⟨by decide, by decide, fun _ => rfl⟩

end Sys2Proof.Tests
end

/-! Everything a step and a bounded run can answer, and simulations: a relation between states that every step keeps is
kept by every run. -/

namespace Sys2Proof.Machine

/-! ### The inversion of a fault -/

theorem execRet_eq_fault {s : State} {f : Fault} : execRet s = .fault f ↔ s.sp.val = 0 ∧ f = .stackUnderflow := by
  rw [← State.pop_eq_error, execRet]
  cases s.pop <;> simp [raise]

theorem execCall_eq_fault {s : State} {nnn : Imm12} {f : Fault} :
    execCall nnn s = .fault f ↔ s.sp.val = 16 ∧ f = .stackOverflow := by
  rw [← State.push_eq_error (v := s.npc), execCall]
  cases s.push s.npc <;> simp [raise]

/-- Which instruction raises which fault (R153): the faults of execution are those of the call stack. -/
theorem exec_eq_fault {i : Instr} {s : State} {f : Fault} :
    exec i s = .fault f ↔
      (i = .ret ∧ s.sp.val = 0 ∧ f = .stackUnderflow) ∨ (∃ nnn, i = .call nnn) ∧ s.sp.val = 16 ∧ f = .stackOverflow := by
  cases i with
  | halt => simp [exec, execHalt_eq]
  | ret => simp [exec, execRet_eq_fault]
  | call nnn => simp [exec, execCall_eq_fault]
  | add x y => simp [exec, execAdd_eq]

/-- A Running core that fetches a legal word runs its instruction and nothing else (R104, R108). -/
theorem step_eq_exec {s : State} {w : Word} {i : Instr} (hst : s.status = .running) (hw : s.fetch = .ok w)
    (hi : decode w = .instr i) : step s = exec i s := by
  simp [step, hst, hw, hi]

/-- The three ways a step can fault (R151, R153, R154): in the fetch, in the decoder, in the instruction. -/
theorem step_eq_fault {s : State} {f : Fault} :
    step s = .fault f ↔ s.status = .running ∧
      (s.fetch = .error f ∨ ∃ w, s.fetch = .ok w ∧
        ((∃ v, decode w = .unsupported v ∧ f = .unsupportedOpcode v) ∨ ∃ i, decode w = .instr i ∧ exec i s = .fault f)) := by
  unfold step
  cases s.status with
  | halted => simp [noStep]
  | running =>
    cases s.fetch with
    | error g => simp [raise]
    | ok w => cases hd : decode w <;> simp [raiseUnsupported, raise, hd, eq_comm]

/-! ### Bounded runs -/

theorem runFor_of_halted {s : State} (k : Nat) (h : s.status = .halted) : runFor k s = some (s, .ok) := by
  cases k <;> simp [runFor, h]

theorem runFor_succ_of_next {s t : State} (k : Nat) (h : step s = .next t) : runFor (k + 1) s = runFor k t := by
  simp [runFor, h, (step_next_inv h).1]

theorem runFor_succ_of_fault {s : State} {f : Fault} (k : Nat) (h : step s = .fault f) :
    runFor (k + 1) s = some (s, .err f) := by
  simp [runFor, h, (step_eq_fault.1 h).1]

/-- The three ways a bounded run can end: at once in Halted, after a step by the rest of the run, or in a fault that
keeps the state (R107, R155). -/
theorem runFor_succ_eq_some {k : Nat} {s t : State} {e : RunEnd} (h : runFor (k + 1) s = some (t, e)) :
    (s.status = .halted ∧ s = t ∧ .ok = e) ∨ (∃ u, step s = .next u ∧ runFor k u = some (t, e)) ∨
      ∃ f, step s = .fault f ∧ s = t ∧ .err f = e := by
  by_cases hst : s.status = .halted
  · exact .inl ⟨hst, by simpa [runFor, hst] using h⟩
  · rw [runFor, if_neg hst] at h
    cases hs : step s <;> simp_all

/-! ### Simulations -/

/-- A relation between states that fixes the status and that every step keeps: related states step to related states
or raise the same fault. -/
def StepSimulation (R : State → State → Prop) : Prop :=
  ∀ s s', R s s' → s.status = s'.status ∧
    (∀ t, step s = .next t → ∃ t', step s' = .next t' ∧ R t t') ∧ ∀ f, step s = .fault f → step s' = .fault f

/-- What every step keeps, every bounded run keeps, and the two runs end in the same way. -/
theorem StepSimulation.runFor {R : State → State → Prop} (hR : StepSimulation R) {k : Nat} {s s' t : State} {e : RunEnd}
    (h : R s s') (hrun : runFor k s = some (t, e)) : ∃ t', runFor k s' = some (t', e) ∧ R t t' := by
  induction k generalizing s s' with
  | zero =>
    obtain ⟨hh, rfl, rfl⟩ : s.status = .halted ∧ s = t ∧ .ok = e := by simpa [Machine.runFor] using hrun
    exact ⟨s', runFor_of_halted 0 ((hR s s' h).1 ▸ hh), h⟩
  | succ k ih =>
    obtain ⟨hst, hnext, hfault⟩ := hR s s' h
    obtain ⟨hh, rfl, rfl⟩ | ⟨u, hs, hu⟩ | ⟨f, hs, rfl, rfl⟩ := runFor_succ_eq_some hrun
    · exact ⟨s', runFor_of_halted _ (hst ▸ hh), h⟩
    · obtain ⟨u', hs', hu'⟩ := hnext u hs
      rw [runFor_succ_of_next k hs']
      exact ih hu' hu
    · exact ⟨s', runFor_succ_of_fault k (hfault f hs), h⟩

/-- What every step keeps, every run keeps (R107). -/
theorem StepSimulation.run {R : State → State → Prop} (hR : StepSimulation R) {s s' t : State} {e : RunEnd}
    (h : R s s') (hrun : run s = some (t, e)) : ∃ t', Machine.run s' = some (t', e) ∧ R t t' :=
  hR.runFor h hrun

end Sys2Proof.Machine

/-! The dead slots `stack[sp]` to `stack[15]` are never read (R18): each operation takes states that differ in them
alone to states that differ in them alone, so a step and a run do. -/

namespace Sys2Proof.Machine

/-- What a push leaves in each slot: the value in the one `sp` indexed, every other as it was (R125). -/
theorem State.slot_of_push {s t : State} {v : Word} (h : s.push v = .ok t) (i : Fin 16) :
    t.slot i = if s.sp.val = i.val then v else s.slot i := by
  obtain ⟨hlt, rfl⟩ := State.push_eq_ok.1 h
  simp [State.slot, Vector.getElem_set]

/-! ### The operations on states that differ in dead slots alone -/

section
variable {s s' : State} (h : SameLive s s')
include h

theorem SameLive.reg_eq (r : RegIx) : s'.reg r = s.reg r := by
  obtain ⟨hx, -⟩ := h
  rw [State.reg, State.reg, hx]

theorem SameLive.npc_eq : s'.npc = s.npc := by
  obtain ⟨-, -, hpc, -⟩ := h
  rw [State.npc, State.npc, hpc]

theorem SameLive.sp_eq : s'.sp = s.sp := by
  obtain ⟨-, -, -, hsp, -⟩ := h
  exact hsp.symm

theorem SameLive.status_eq : s'.status = s.status := by
  obtain ⟨-, -, -, -, hst, -⟩ := h
  exact hst.symm

/-- The fetch reads memory and `pc`, no slot (R101). -/
theorem SameLive.fetch_eq : s'.fetch = s.fetch := by
  obtain ⟨-, hmem, hpc, -⟩ := h
  simp only [State.fetch, memRead2, hmem, hpc]

theorem SameLive.setPc (v : Word) : SameLive (s.setPc v) (s'.setPc v) := by
  obtain ⟨hx, hmem, -, hsp, hst, hslot⟩ := h
  exact ⟨hx, hmem, rfl, hsp, hst, hslot⟩

theorem SameLive.setStatus (v : Status) : SameLive (s.setStatus v) (s'.setStatus v) := by
  obtain ⟨hx, hmem, hpc, hsp, -, hslot⟩ := h
  exact ⟨hx, hmem, hpc, hsp, rfl, hslot⟩

theorem SameLive.setReg (r : RegIx) (v : Byte) : SameLive (s.setReg r v) (s'.setReg r v) := by
  obtain ⟨hx, hmem, hpc, hsp, hst, hslot⟩ := h
  exact ⟨by rw [State.setReg, State.setReg, hx], hmem, hpc, hsp, hst, hslot⟩

theorem SameLive.setCarry (cy : BitVec 1) : SameLive (s.setCarry cy) (s'.setCarry cy) := h.setReg _ _

/-- A push brings one dead slot to life, and writes it first. -/
theorem SameLive.push {t : State} {v : Word} (hp : s.push v = .ok t) : ∃ t', s'.push v = .ok t' ∧ SameLive t t' := by
  obtain ⟨hlt, rfl⟩ := State.push_eq_ok.1 hp
  have hp' := State.push_eq_ok (v := v).2 ⟨h.sp_eq ▸ hlt, rfl⟩
  refine ⟨_, hp', ?_⟩
  obtain ⟨hx, hmem, hpc, hsp, hst, hslot⟩ := h
  refine ⟨hx, hmem, hpc, by simp only [hsp], hst, fun i hi => ?_⟩
  have hi : i.val < s.sp.val + 1 := hi
  rw [State.slot_of_push hp, State.slot_of_push hp', ← hsp]
  split
  · rfl
  · exact hslot i (by omega)

/-- A pop reads the top live slot, which the two states share. -/
theorem SameLive.pop {t : State} {v : Word} (hp : s.pop = .ok (v, t)) : ∃ t', s'.pop = .ok (v, t') ∧ SameLive t t' := by
  obtain ⟨hpos, rfl, rfl⟩ := State.pop_eq_ok.1 hp
  obtain ⟨hx, hmem, hpc, hsp, hst, hslot⟩ := h
  have htop := hslot ⟨s.sp.val - 1, by omega⟩ (Nat.pred_lt_self hpos)
  refine ⟨_, State.pop_eq_ok.2 ⟨hsp ▸ hpos, by simpa only [hsp] using htop, rfl⟩, hx, hmem, hpc, by simp only [hsp], hst,
    fun i hi => hslot i ?_⟩
  have hi : i.val < s.sp.val - 1 := hi
  omega

/-! ### Instructions and steps -/

/-- Execution reads no dead slot: the two next states differ in dead slots alone. -/
theorem SameLive.exec {i : Instr} {t : State} (hi : exec i s = .next t) : ∃ t', exec i s' = .next t' ∧ SameLive t t' := by
  cases i with
  | halt =>
    obtain rfl := Host.Outcome.next.inj hi
    exact ⟨_, rfl, h.npc_eq ▸ (h.setPc _).setStatus _⟩
  | ret =>
    obtain ⟨v, u, hu, rfl⟩ := execRet_eq_next.1 hi
    obtain ⟨u', hu', hs⟩ := h.pop hu
    exact ⟨_, execRet_eq_next.2 ⟨v, u', hu', rfl⟩, hs.setPc v⟩
  | call nnn =>
    obtain ⟨u, hu, rfl⟩ := execCall_eq_next.1 hi
    obtain ⟨u', hu', hs⟩ := h.push hu
    exact ⟨_, execCall_eq_next.2 ⟨u', h.npc_eq ▸ hu', rfl⟩, hs.setPc _⟩
  | add x y =>
    obtain rfl := Host.Outcome.next.inj hi
    refine ⟨_, execAdd_eq x y s', ?_⟩
    rw [h.npc_eq, h.reg_eq, h.reg_eq]
    exact ((h.setReg _ _).setCarry _).setPc _

theorem SameLive.step_next {t : State} (hs : step s = .next t) : ∃ t', step s' = .next t' ∧ SameLive t t' := by
  obtain ⟨hst, w, i, hw, hi, ht⟩ := step_next_inv hs
  rw [step_eq_exec (h.status_eq ▸ hst) (h.fetch_eq ▸ hw) hi]
  exact h.exec ht

/-- Whether a step faults is decided by the status, the fetch and `sp`, none of them a slot. -/
theorem SameLive.step_fault {f : Fault} (hs : step s = .fault f) : step s' = .fault f := by
  simpa only [step_eq_fault, exec_eq_fault, h.status_eq, h.fetch_eq, h.sp_eq] using hs

end

theorem stepSimulation_sameLive : StepSimulation SameLive :=
  fun _ _ h => ⟨h.status_eq.symm, fun _ => h.step_next, fun _ => h.step_fault⟩

/-- Settles O38: `SameLive` is kept by every step, so by every run. -/
theorem deadSlotsAreNeverRead : Obligations.DeadSlotsAreNeverRead := by
  intro s s' h
  exact ⟨fun _ => h.step_next, fun _ => h.step_fault, fun _ _ => stepSimulation_sameLive.run h⟩

end Sys2Proof.Machine

/-! What reset leaves in the state (R28), and the run from there with nothing loaded (R29). -/

namespace Sys2Proof.Machine

/-- Settles O40: each piece of state as `resetAt` builds it. -/
theorem resetZeroesEverything : Obligations.ResetZeroesEverything :=
  ⟨rfl, fun _ p =>
    ⟨rfl, State.resetAt_reg p, Memory.read_nil, State.resetAt_slot p, rfl, rfl, rfl⟩⟩

/-- An empty memory reads as the word 0x0000, which is HALT. -/
theorem step_reset : step State.reset = .next ((State.reset.setPc 2).setStatus .halted) := by
  have hfetch : State.reset.fetch = .ok 0x0000 := State.fetch_eq_ok.2 ⟨by decide, rfl⟩
  have hhalt : decode 0x0000 = .instr .halt := by decide
  exact step_eq_exec rfl hfetch hhalt

/-- Settles O41: the run is the step of HALT, then nothing. -/
theorem resetAndRunHaltsAtOnce : Obligations.ResetAndRunHaltsAtOnce := by
  unfold Obligations.ResetAndRunHaltsAtOnce
  obtain ⟨k, hk⟩ : ∃ k, Config.maxRunSteps = k + 1 := Nat.exists_eq_add_one_of_ne_zero (by decide)
  rw [run, hk, runFor_succ_of_next k step_reset]
  exact runFor_of_halted k rfl

end Sys2Proof.Machine

/-! The checked accesses to memory (R42, R43): what each answers inside the memory and outside it, and what a sequence of
bytes written reads as afterwards. -/

namespace Sys2Proof.Machine

/-! ### The checked read -/

theorem not_inMemory_of_lt {addr n : Nat} (h : 4096 < addr + n) : ¬ inMemory addr n = true :=
  fun hin => Nat.not_le_of_lt h ((inMemory_iff _ _).1 hin)

/-- `{hi, lo}` as a number: the high byte counts 256 (R45). -/
theorem joinBytes_toNat (hi lo : Byte) : (joinBytes hi lo).toNat = hi.toNat * 256 + lo.toNat := by
  rw [joinBytes, BitVec.toNat_append, ← Nat.shiftLeft_add_eq_or_of_lt lo.isLt, Nat.shiftLeft_eq]

theorem memRead1_of_le {addr : Nat} {s : State} (h : addr + 1 ≤ 4096) : memRead1 addr s = .ok (s.mem.read addr) :=
  if_pos ((inMemory_iff _ _).2 h)

theorem memRead1_of_lt {addr : Nat} {s : State} (h : 4096 < addr + 1) : memRead1 addr s = .error .addressingFault :=
  if_neg (not_inMemory_of_lt h)

theorem memRead2_of_le {addr : Nat} {s : State} (h : addr + 2 ≤ 4096) :
    memRead2 addr s = .ok (joinBytes (s.mem.read addr) (s.mem.read (addr + 1))) :=
  if_pos ((inMemory_iff _ _).2 h)

theorem memRead2_of_lt {addr : Nat} {s : State} (h : 4096 < addr + 2) : memRead2 addr s = .error .addressingFault :=
  if_neg (not_inMemory_of_lt h)

/-- Settles O54: the two answers of each read. -/
theorem checkedReadFaultsOutsideMemory : Obligations.CheckedReadFaultsOutsideMemory :=
  fun _ _ => ⟨memRead1_of_lt, memRead1_of_le, memRead2_of_lt, fun h => ⟨_, memRead2_of_le h, joinBytes_toNat _ _⟩⟩

/-! ### The checked write -/

theorem memWrite_of_le {addr : Nat} {bytes : List Byte} {s : State} (h : addr + bytes.length ≤ 4096) :
    memWrite addr bytes s = .ok { s with mem := s.mem.writeAll addr bytes } :=
  if_pos ((inMemory_iff _ _).2 h)

theorem memWrite_of_lt {addr : Nat} {bytes : List Byte} {s : State} (h : 4096 < addr + bytes.length) :
    memWrite addr bytes s = .error .addressingFault :=
  if_neg (not_inMemory_of_lt h)

/-- A read after a write of a sequence (R43): inside the range the byte given for it, outside the byte as it was. The
first byte is written first, and the rest of the sequence starts one address above it. -/
theorem Memory.read_writeAll {m : Memory} {a : Nat} {vs : List Byte} (hm : m.wf) (h : a + vs.length ≤ 4096) (b : Nat) :
    (m.writeAll a vs).read b = if a ≤ b ∧ b < a + vs.length then vs.getD (b - a) 0 else m.read b := by
  induction vs generalizing m a with
  | nil => exact (if_neg fun ⟨hle, hlt⟩ => Nat.not_lt_of_le hle hlt).symm
  | cons v vs ih =>
    simp only [List.length_cons] at h ⊢
    rw [Memory.writeAll, ih (Memory.write_wf v hm (by omega)) (by omega), Memory.read_write a v b hm]
    obtain hlt | rfl | hgt := Nat.lt_trichotomy b a
    · rw [if_neg (by omega), if_neg (by omega), if_neg (by omega)]
    · simp
    · have hix : b - a = b - (a + 1) + 1 := by omega
      have hrange : (a + 1 ≤ b ∧ b < a + 1 + vs.length) ↔ (a ≤ b ∧ b < a + (vs.length + 1)) := by omega
      rw [if_neg hgt.ne', hix, List.getD_cons_succ]
      simp only [hrange]

/-- Settles O55: the check of the range, then the read after the write of a sequence. -/
theorem checkedWriteOverwritesTheRange : Obligations.CheckedWriteOverwritesTheRange :=
  fun _ _ _ => ⟨memWrite_of_lt, fun h hm => ⟨_, memWrite_of_le h, Memory.read_writeAll hm h⟩⟩

end Sys2Proof.Machine

/-! The opcode map (R75, R76): which fields of a word select each row, that no word selects two rows, and what the decoder
answers in terms of the row the word selects. -/

namespace Sys2Proof

/-! ### The fields of a word (R71) -/

theorem fieldC_toNat (w : Word) : (fieldC w).toNat = w.toNat / 4096 % 16 := by
  simp [fieldC, Nat.shiftRight_eq_div_pow]

theorem fieldX_toNat (w : Word) : (fieldX w).toNat = w.toNat / 256 % 16 := by
  simp [fieldX, Nat.shiftRight_eq_div_pow]

theorem fieldY_toNat (w : Word) : (fieldY w).toNat = w.toNat / 16 % 16 := by
  simp [fieldY, Nat.shiftRight_eq_div_pow]

theorem fieldD_toNat (w : Word) : (fieldD w).toNat = w.toNat % 16 := by
  simp [fieldD]

theorem fieldNNN_toNat (w : Word) : (fieldNNN w).toNat = w.toNat % 4096 := by
  simp [fieldNNN]

/-- The four fields of four bits cover the word. -/
theorem word_eq_iff_fields {w v : Word} :
    w = v ↔ fieldC w = fieldC v ∧ fieldX w = fieldX v ∧ fieldY w = fieldY v ∧ fieldD w = fieldD v := by
  refine ⟨fun h => h ▸ ⟨rfl, rfl, rfl, rfl⟩, fun h => BitVec.eq_of_toNat_eq ?_⟩
  simp only [BitVec.toNat_eq, fieldC_toNat, fieldX_toNat, fieldY_toNat, fieldD_toNat] at h
  omega

/-! ### The rows of the opcode map -/

theorem OpcodeRow.selects_iff {r : OpcodeRow} {w : Word} : r.selects w = true ↔ w &&& r.mask = r.pattern := by
  simp [OpcodeRow.selects]

/-- The comparison under the mask is made field by field. -/
theorem OpcodeRow.selects_iff_fields {r : OpcodeRow} {w : Word} :
    r.selects w = true ↔ fieldC w &&& fieldC r.mask = fieldC r.pattern ∧ fieldX w &&& fieldX r.mask = fieldX r.pattern ∧
      fieldY w &&& fieldY r.mask = fieldY r.pattern ∧ fieldD w &&& fieldD r.mask = fieldD r.pattern := by
  simp only [selects_iff, word_eq_iff_fields (v := r.pattern), fieldC, fieldX, fieldY, fieldD, BitVec.extractLsb'_and]

/-- A field the mask covers is compared whole. -/
theorem and_fieldMask (f : BitVec 4) : f &&& 15#4 = f := BitVec.and_allOnes

theorem haltRow_selects_iff {w : Word} :
    haltRow.selects w = true ↔ fieldC w = 0x0 ∧ fieldX w = 0x0 ∧ fieldY w = 0x0 ∧ fieldD w = 0x0 := by
  simp [OpcodeRow.selects_iff_fields, haltRow, fieldC, fieldX, fieldY, fieldD, and_fieldMask]

theorem retRow_selects_iff {w : Word} :
    retRow.selects w = true ↔ fieldC w = 0x0 ∧ fieldX w = 0x0 ∧ fieldY w = 0xE ∧ fieldD w = 0xE := by
  simp [OpcodeRow.selects_iff_fields, retRow, fieldC, fieldX, fieldY, fieldD, and_fieldMask]

theorem callRow_selects_iff {w : Word} : callRow.selects w = true ↔ fieldC w = 0x2 := by
  simp [OpcodeRow.selects_iff_fields, callRow, fieldC, fieldX, fieldY, fieldD, and_fieldMask]

theorem addRow_selects_iff {w : Word} : addRow.selects w = true ↔ fieldC w = 0x8 ∧ fieldD w = 0x4 := by
  simp [OpcodeRow.selects_iff_fields, addRow, fieldC, fieldX, fieldY, fieldD, and_fieldMask]

/-- Two rows that one word selects agree wherever both masks look: both patterns are the word there. -/
theorem OpcodeRow.patterns_agree {r q : OpcodeRow} {w : Word} (hr : r.selects w = true) (hq : q.selects w = true) :
    r.pattern &&& q.mask = q.pattern &&& r.mask := by
  rw [OpcodeRow.selects_iff] at hr hq
  rw [← hr, ← hq, BitVec.and_assoc, BitVec.and_assoc, BitVec.and_comm r.mask]

/-- Two different rows of the map differ at a bit both masks look at. -/
theorem opcodeMap_patterns_differ :
    ∀ r ∈ opcodeMap, ∀ q ∈ opcodeMap, r.pattern &&& q.mask = q.pattern &&& r.mask → r = q := by decide

/-- Settles O5: two rows that share a word agree under both masks, and different rows of the map do not. -/
theorem opcodeRowsAreDisjoint : Obligations.OpcodeRowsAreDisjoint :=
  fun _ r q hr hq hrw hqw => opcodeMap_patterns_differ r hr q hq (OpcodeRow.patterns_agree hrw hqw)

theorem legalWord_eq_false_iff {w : Word} :
    legalWord w = false ↔ w &&& haltRow.mask ≠ haltRow.pattern ∧ w &&& retRow.mask ≠ retRow.pattern ∧
      w &&& callRow.mask ≠ callRow.pattern ∧ w &&& addRow.mask ≠ addRow.pattern := by
  simp [legalWord, opcodeMap, OpcodeRow.selects]

/-! ### The decoder by rows -/

/-- The operands of an instruction are the fields of the word (R71). -/
def Instr.readsFields (w : Word) : Instr → Prop
  | .halt => True
  | .ret => True
  | .call nnn => nnn = fieldNNN w
  | .add x y => x = fieldX w ∧ y = fieldY w

theorem Instr.row_mem (i : Instr) : i.row ∈ opcodeMap := by
  cases i <;> simp [Instr.row, opcodeMap]

/-- The row and the word leave no choice of instruction. -/
theorem Instr.eq_of_row_eq {i j : Instr} {w : Word} (h : i.row = j.row) (hi : i.readsFields w) (hj : j.readsFields w) :
    i = j := by
  cases i <;> cases j
  case halt.halt | ret.ret => rfl
  case call.call => exact congrArg Instr.call (hi.trans hj.symm)
  case add.add =>
    obtain ⟨⟨rfl, rfl⟩, rfl, rfl⟩ := And.intro hi hj
    rfl
  all_goals simp [Instr.row, haltRow, retRow, callRow, addRow] at h

/-- The decoder's tests are those of the rows, in the order of the map. -/
theorem decode_eq_ite (w : Word) :
    decode w = if haltRow.selects w then .instr .halt
      else if retRow.selects w then .instr .ret
      else if callRow.selects w then .instr (.call (fieldNNN w))
      else if addRow.selects w then .instr (.add (fieldX w) (fieldY w))
      else .unsupported w := by
  simp only [decode, haltRow_selects_iff, retRow_selects_iff, callRow_selects_iff, addRow_selects_iff]

/-- What the decoder answers is an instruction whose row the word selects, or the word itself where it selects none. -/
theorem decode_cases (w : Word) :
    (∃ i, decode w = .instr i ∧ i.row.selects w = true ∧ i.readsFields w) ∨
      decode w = .unsupported w ∧ legalWord w = false := by
  rw [decode_eq_ite]
  by_cases hhalt : haltRow.selects w = true
  · exact .inl ⟨.halt, if_pos hhalt, hhalt, trivial⟩
  rw [if_neg hhalt]
  by_cases hret : retRow.selects w = true
  · exact .inl ⟨.ret, if_pos hret, hret, trivial⟩
  rw [if_neg hret]
  by_cases hcall : callRow.selects w = true
  · exact .inl ⟨.call _, if_pos hcall, hcall, rfl⟩
  rw [if_neg hcall]
  by_cases hadd : addRow.selects w = true
  · exact .inl ⟨.add _ _, if_pos hadd, hadd, rfl, rfl⟩
  · exact .inr ⟨if_neg hadd, by simp [legalWord, opcodeMap, hhalt, hret, hcall, hadd]⟩

theorem legalWord_of_row_selects {i : Instr} {w : Word} (h : i.row.selects w = true) : legalWord w = true :=
  List.any_eq_true.2 ⟨i.row, i.row_mem, h⟩

/-- A word decodes to an instruction exactly when it selects that instruction's row and holds its operands. -/
theorem decode_eq_instr_iff {w : Word} {i : Instr} :
    decode w = .instr i ↔ i.row.selects w = true ∧ i.readsFields w := by
  obtain ⟨j, hd, hrow, hread⟩ | ⟨hd, hillegal⟩ := decode_cases w
  · rw [hd, Decoded.instr.injEq]
    refine ⟨fun h => h ▸ ⟨hrow, hread⟩, fun ⟨hirow, hiread⟩ => ?_⟩
    exact Instr.eq_of_row_eq (opcodeRowsAreDisjoint w _ _ j.row_mem i.row_mem hrow hirow) hread hiread
  · simp only [hd, reduceCtorEq, false_iff, not_and]
    intro hirow
    simp [legalWord_of_row_selects hirow] at hillegal

/-- The illegal words, and they alone, are handed on whole (R77, R81). -/
theorem decode_eq_unsupported_iff {w v : Word} : decode w = .unsupported v ↔ v = w ∧ legalWord w = false := by
  obtain ⟨i, hd, hrow, -⟩ | ⟨hd, hillegal⟩ := decode_cases w
  · simp [hd, legalWord_of_row_selects hrow]
  · simp [hd, hillegal, eq_comm]

/-- Settles O1: the row of each instruction, its mask and its match written out. -/
theorem opcodeMapByMatchAndMask : Obligations.OpcodeMapByMatchAndMask := by
  intro w
  refine ⟨?halt, ?ret, fun nnn => ?call, fun x y => ?add, fun v => ?unsupported⟩
  case halt | ret => exact decode_eq_instr_iff.trans ((and_iff_left trivial).trans OpcodeRow.selects_iff)
  case call =>
    rw [← fieldNNN_toNat, ← BitVec.toNat_eq]
    exact decode_eq_instr_iff.trans (and_congr_left' OpcodeRow.selects_iff)
  case add =>
    rw [← fieldX_toNat, ← fieldY_toNat, ← BitVec.toNat_eq, ← BitVec.toNat_eq]
    exact decode_eq_instr_iff.trans (and_congr_left' OpcodeRow.selects_iff)
  case unsupported => exact decode_eq_unsupported_iff.trans (and_congr_right' legalWord_eq_false_iff)

end Sys2Proof

/-! The fetch at both sides of its boundary (R101), and how a run answers a step that faults or has nothing to do. -/

namespace Sys2Proof.Machine

/-- The bound on the steps of a run lets at least one step be taken. -/
theorem exists_maxRunSteps_eq_succ : ∃ k, Config.maxRunSteps = k + 1 :=
  Nat.exists_eq_add_one_of_ne_zero (by decide)

/-- A step that faults ends the run there, with the state as it was (R107, R155). -/
theorem run_of_fault {s : State} {f : Fault} (h : step s = .fault f) : run s = some (s, .err f) := by
  obtain ⟨k, hk⟩ := exists_maxRunSteps_eq_succ
  rw [run, hk, runFor_succ_of_fault k h]

theorem transact_run_of_fault {s : State} {f : Fault} (h : step s = .fault f) : transact .run s = (s, .err f) := by
  simp only [transact, run_of_fault h, answerRun]

/-- The word fetched, as a number: the byte at `pc` counts 256 (R101, R45). -/
theorem State.fetch_toNat {s : State} {w : Word} (h : s.fetch = .ok w) :
    w.toNat = (s.mem.read s.pc.toNat).toNat * 256 + (s.mem.read (s.pc.toNat + 1)).toNat := by
  obtain ⟨-, rfl⟩ := State.fetch_eq_ok.1 h
  exact joinBytes_toNat _ _

/-- Settles O9: the two answers of the fetch, and the fault carried through the step and the run. -/
theorem fetchReadsBigEndianWindow : Obligations.FetchReadsBigEndianWindow := by
  intro s
  refine ⟨fun hpc => ?inside, fun hpc => ?outside⟩
  case inside =>
    have hfetch := State.fetch_eq_ok.2 ⟨hpc, rfl⟩
    exact ⟨_, hfetch, State.fetch_toNat hfetch⟩
  case outside =>
    have hfetch := State.fetch_eq_error.2 ⟨hpc, rfl⟩
    refine ⟨hfetch, fun hst => ?_⟩
    have hstep := step_eq_fault.2 ⟨hst, .inl hfetch⟩
    exact ⟨hstep, run_of_fault hstep⟩

end Sys2Proof.Machine

/-! The step is the block of pseudocode of R108: each handler in the block's numbers, then the block's tests as the rows
of the opcode map. -/

namespace Sys2Proof.Machine

/-! ### The handlers over numbers -/

theorem setIfInBounds_eq_set {α : Type} {n i : Nat} (xs : Vector α n) (v : α) (h : i < n) :
    xs.setIfInBounds i v = xs.set i v h := by
  ext; simp [Vector.getElem_set, Vector.getElem_setIfInBounds]

theorem State.npc_eq_ofNat (s : State) : s.npc = BitVec.ofNat 16 (s.pc.toNat + 2) := by
  simp [State.npc, BitVec.ofNat_add]

theorem execHalt_eq_block (s : State) :
    execHalt s = .next { s with pc := BitVec.ofNat 16 (s.pc.toNat + 2), status := .halted } := by
  rw [← State.npc_eq_ofNat, execHalt_eq]
  rfl

theorem execRet_eq_block (s : State) :
    execRet s = if s.sp.val = 0 then .fault .stackUnderflow
      else .next { s with pc := s.stack.toList.getD (s.sp.val - 1) 0, sp := Fin.ofNat 17 (s.sp.val - 1) } := by
  split
  case isTrue h => exact execRet_eq_fault.2 ⟨h, rfl⟩
  case isFalse h =>
    have hslot : s.sp.val - 1 < 16 := by omega
    refine execRet_eq_next.2 ⟨_, _, State.pop_eq_ok.2 ⟨Nat.pos_of_ne_zero h, rfl, rfl⟩, ?_⟩
    have hsp : Fin.ofNat 17 (s.sp.val - 1) = ⟨s.sp.val - 1, by omega⟩ := Fin.ext (Nat.mod_eq_of_lt (by omega))
    rw [hsp]
    simp [State.setPc, State.slot, hslot]

theorem execCall_eq_block (nnn : Imm12) (s : State) :
    execCall nnn s = if s.sp.val = 16 then .fault .stackOverflow
      else .next { s with stack := s.stack.setIfInBounds s.sp.val (BitVec.ofNat 16 (s.pc.toNat + 2)),
                          sp := Fin.ofNat 17 (s.sp.val + 1), pc := BitVec.ofNat 16 nnn.toNat } := by
  split
  case isTrue h => exact execCall_eq_fault.2 ⟨h, rfl⟩
  case isFalse h =>
    have hroom : s.sp.val < 16 := by omega
    refine execCall_eq_next.2 ⟨_, State.push_eq_ok.2 ⟨hroom, rfl⟩, ?_⟩
    have hsp : Fin.ofNat 17 (s.sp.val + 1) = ⟨s.sp.val + 1, by omega⟩ := Fin.ext (Nat.mod_eq_of_lt (by omega))
    rw [← State.npc_eq_ofNat, hsp, setIfInBounds_eq_set _ _ hroom]
    simp [State.setPc, callTarget]

/-- The 9-bit sum is exact (R140). -/
theorem sum9_toNat (a b : Byte) : (sum9 a b).toNat = a.toNat + b.toNat := by
  have ha := a.isLt
  have hb := b.isLt
  simp only [sum9, BitVec.toNat_add, BitVec.toNat_setWidth]
  omega

theorem add8_fst_toNat (a b : Byte) : (add8 a b).1.toNat = (a.toNat + b.toNat) % 256 := by
  simp [add8, sum9_toNat]

/-- The carry is the ninth bit of a sum below 512, so the quotient by 256. -/
theorem add8_snd_toNat (a b : Byte) : (add8 a b).2.toNat = (a.toNat + b.toNat) / 256 := by
  have ha := a.isLt
  have hb := b.isLt
  simp only [add8, BitVec.extractLsb'_toNat, sum9_toNat, Nat.shiftRight_eq_div_pow]
  omega

theorem execAdd_eq_block (x y : RegIx) (s : State) :
    execAdd x y s =
      let t := (s.x.toList.getD x.toNat 0).toNat + (s.x.toList.getD y.toNat 0).toNat
      .next { s with x := (s.x.setIfInBounds x.toNat (BitVec.ofNat 8 (t % 256))).setIfInBounds 15
                       (BitVec.ofNat 8 (t / 256)),
                     pc := BitVec.ofNat 16 (s.pc.toNat + 2) } := by
  have hreg (r : RegIx) : s.x.toList.getD r.toNat 0 = s.reg r := by simp [State.reg, r.isLt]
  simp only [hreg, ← add8_fst_toNat, ← add8_snd_toNat, BitVec.ofNat_toNat, BitVec.setWidth_eq,
    setIfInBounds_eq_set _ _ x.isLt, setIfInBounds_eq_set _ _ (show 15 < 16 by decide), ← State.npc_eq_ofNat, execAdd_eq]
  rfl

/-! ### The block -/

theorem specStep_of_pc_gt {s : State} (h : 4094 < s.pc.toNat) : specStep s = .fault .addressingFault :=
  if_pos h

/-- The block's tests on the nibbles are those of the rows of the opcode map, and its branches are the handlers. -/
theorem specStep_eq_ite {s : State} {w : Word} (hw : s.fetch = .ok w) :
    specStep s = if haltRow.selects w then execHalt s
      else if retRow.selects w then execRet s
      else if callRow.selects w then execCall (fieldNNN w) s
      else if addRow.selects w then execAdd (fieldX w) (fieldY w) s
      else .fault (.unsupportedOpcode w) := by
  have hpc : ¬ s.pc.toNat > 4094 := Nat.not_lt_of_le (State.fetch_eq_ok.1 hw).1
  simp only [specStep, if_neg hpc, ← State.fetch_toNat hw, ← fieldC_toNat, ← fieldX_toNat, ← fieldY_toNat,
    ← fieldD_toNat, ← fieldNNN_toNat, execHalt_eq_block, execRet_eq_block, execCall_eq_block, execAdd_eq_block,
    haltRow_selects_iff, retRow_selects_iff, callRow_selects_iff, addRow_selects_iff, BitVec.toNat_eq,
    BitVec.ofNat_toNat, BitVec.setWidth_eq]
  -- What is left is the nibbles' constants, numbers on one side and fields on the other.
  rfl

/-- A Running core's step is the block (R108). -/
theorem step_eq_specStep {s : State} (hst : s.status = .running) : step s = specStep s := by
  cases hw : s.fetch with
  | error f =>
    obtain ⟨hpc, rfl⟩ := State.fetch_eq_error.1 hw
    rw [specStep_of_pc_gt hpc]
    exact step_eq_fault.2 ⟨hst, .inl hw⟩
  | ok w =>
    simp only [specStep_eq_ite hw, step, hst, hw, decode_eq_ite]
    split_ifs <;> rfl

/-- Settles O8: the step is the block, and a run that starts with a fault of the block ends there. -/
theorem stepIsTheSpecBlock : Obligations.StepIsTheSpecBlock := by
  intro s hst
  have hstep := step_eq_specStep hst
  exact ⟨hstep, fun _ hf => transact_run_of_fault (hstep.trans hf)⟩

end Sys2Proof.Machine

/-! Every run ends before the bound on its steps (R198): each step lowers a number below that bound. So `run` is the
loop of steps. -/

namespace Sys2Proof.Machine

/-! ### Numbers by their digits -/

/-- The number whose first `n` digits in base 65537 are `d 0` to `d (n - 1)`, the first one the highest. -/
def ofTopDigits (d : Nat → Nat) : Nat → Nat
  | 0 => 0
  | n + 1 => ofTopDigits d n * 65537 + d n

theorem ofTopDigits_lt {d : Nat → Nat} (hd : ∀ i, d i < 65537) (n : Nat) : ofTopDigits d n < 65537 ^ n := by
  induction n with
  | zero => simp [ofTopDigits]
  | succ n ih =>
    have := hd n
    rw [ofTopDigits, Nat.pow_succ]
    omega

theorem ofTopDigits_congr {d e : Nat → Nat} {n : Nat} (h : ∀ i < n, d i = e i) : ofTopDigits d n = ofTopDigits e n := by
  induction n with
  | zero => rfl
  | succ n ih => rw [ofTopDigits, ofTopDigits, ih fun i hi => h i (Nat.lt_succ_of_lt hi), h n n.lt_succ_self]

/-- Numbers are ordered by the first digit in which they differ. -/
theorem ofTopDigits_lt_of_first_lt {d e : Nat → Nat} {i n : Nat} (hd : ∀ j, d j < 65537) (hsame : ∀ j < i, d j = e j)
    (hlt : d i < e i) (hn : i < n) : ofTopDigits d n < ofTopDigits e n := by
  induction n, hn using Nat.le_induction with
  | base =>
    rw [ofTopDigits, ofTopDigits, ofTopDigits_congr hsame]
    omega
  | succ n _ ih =>
    have := hd n
    rw [ofTopDigits, ofTopDigits]
    omega

/-! ### The number a step lowers (log entry 15) -/

/-- The distance of a return address, or of `pc`, from the top of the 16-bit range: never 0. -/
def topDistance (v : Word) : Nat := 65536 - v.toNat

/-- The live slots from the bottom and then `pc`, each as its distance from the top; 0 above them. -/
def State.pathDigit (s : State) (i : Nat) : Nat :=
  if h : i < s.sp.val then topDistance (s.slot ⟨i, by omega⟩) else if i = s.sp.val then topDistance s.pc else 0

/-- What every step lowers: the digits of the path, of which there are at most 17. -/
def State.pathMeasure (s : State) : Nat := ofTopDigits s.pathDigit 17

theorem topDistance_pos (v : Word) : 0 < topDistance v := Nat.sub_pos_of_lt v.isLt

theorem State.pathDigit_lt (s : State) (i : Nat) : s.pathDigit i < 65537 := by
  simp only [State.pathDigit, topDistance]
  split_ifs <;> omega

theorem State.pathMeasure_lt (s : State) : s.pathMeasure < Config.maxRunSteps := ofTopDigits_lt s.pathDigit_lt 17

theorem State.pathDigit_of_lt {s : State} (i : Fin 16) (h : i.val < s.sp.val) :
    s.pathDigit i.val = topDistance (s.slot i) := dif_pos h

theorem State.pathDigit_sp (s : State) : s.pathDigit s.sp.val = topDistance s.pc := by
  simp [State.pathDigit]

theorem State.pathDigit_of_gt {s : State} {i : Nat} (h : s.sp.val < i) : s.pathDigit i = 0 := by
  simp [State.pathDigit, h.not_gt, h.ne']

/-- The digits of live slots depend on nothing but the slots. -/
theorem State.pathDigit_congr {s t : State} {i : Nat} (hs : i < s.sp.val) (ht : i < t.sp.val)
    (h : ∀ k : Fin 16, k.val < s.sp.val → t.slot k = s.slot k) : t.pathDigit i = s.pathDigit i := by
  have hi : i < 16 := by omega
  rw [State.pathDigit_of_lt ⟨i, hi⟩ ht, State.pathDigit_of_lt ⟨i, hi⟩ hs, h ⟨i, hi⟩ hs]

/-- The advance after a fetch does not wrap, so it comes nearer to the top (R102, R17). -/
theorem topDistance_npc_lt {s : State} {w : Word} (h : s.fetch = .ok w) : topDistance s.npc < topDistance s.pc := by
  have hpc := (State.fetch_eq_ok.1 h).1
  simp only [topDistance, State.npc_eq_ofNat, BitVec.toNat_ofNat]
  omega

/-- Below `sp` the path is kept, at `sp` it comes nearer to the top: then the number is lower. -/
theorem State.pathMeasure_lt_of_digit_sp {s t : State} (hbelow : ∀ j < s.sp.val, t.pathDigit j = s.pathDigit j)
    (hsp : t.pathDigit s.sp.val < topDistance s.pc) : t.pathMeasure < s.pathMeasure :=
  ofTopDigits_lt_of_first_lt t.pathDigit_lt hbelow (s.pathDigit_sp ▸ hsp) s.sp.isLt

/-- An instruction that stays in its subroutine and goes on to the next word lowers the digit of `pc`. -/
theorem pathMeasure_lt_of_advance {s t : State} {w : Word} (hw : s.fetch = .ok w) (hpc : t.pc = s.npc)
    (hsp : t.sp = s.sp) (hslot : ∀ k, t.slot k = s.slot k) : t.pathMeasure < s.pathMeasure := by
  refine State.pathMeasure_lt_of_digit_sp (fun j hj => ?below) ?here
  case below => exact State.pathDigit_congr hj (hsp ▸ hj) fun k _ => hslot k
  case here =>
    rw [← hsp, t.pathDigit_sp, hpc]
    exact topDistance_npc_lt hw

/-- CALL puts the return address where the digit of `pc` was (R127). -/
theorem pathMeasure_lt_of_call {s t : State} {w : Word} {nnn : Imm12} (hw : s.fetch = .ok w)
    (h : execCall nnn s = .next t) : t.pathMeasure < s.pathMeasure := by
  obtain ⟨u, hu, rfl⟩ := execCall_eq_next.1 h
  obtain ⟨hroom, hu_eq⟩ := State.push_eq_ok.1 hu
  have hsp : u.sp.val = s.sp.val + 1 := by rw [hu_eq]
  have hlive {j : Nat} (hj : j ≤ s.sp.val) : j < (u.setPc (callTarget nnn)).sp.val := by simp; omega
  refine State.pathMeasure_lt_of_digit_sp (fun j hj => ?below) ?here
  case below =>
    refine State.pathDigit_congr hj (hlive hj.le) fun k hk => ?_
    rw [State.setPc_slot, State.slot_of_push hu, if_neg hk.ne']
  case here =>
    rw [State.pathDigit_of_lt ⟨s.sp.val, hroom⟩ (hlive le_rfl), State.setPc_slot, State.slot_of_push hu, if_pos rfl]
    exact topDistance_npc_lt hw

/-- RETURN takes the digit of `pc` away, and the new `pc` has the digit of the slot it came from (R128). -/
theorem pathMeasure_lt_of_ret {s t : State} (h : execRet s = .next t) : t.pathMeasure < s.pathMeasure := by
  obtain ⟨v, u, hu, rfl⟩ := execRet_eq_next.1 h
  obtain ⟨hpos, rfl, rfl⟩ := State.pop_eq_ok.1 hu
  refine State.pathMeasure_lt_of_digit_sp (fun j hj => ?below) ?here
  case below =>
    obtain hj | rfl : j < s.sp.val - 1 ∨ j = s.sp.val - 1 := by omega
    · exact State.pathDigit_congr (by omega) hj fun _ _ => rfl
    · exact (State.pathDigit_sp _).trans (State.pathDigit_of_lt ⟨s.sp.val - 1, by omega⟩ (Nat.pred_lt_self hpos)).symm
  case here =>
    rw [State.pathDigit_of_gt (Nat.pred_lt_self hpos)]
    exact topDistance_pos _

/-- Every step lowers the number of the path. -/
theorem step_lowers_pathMeasure {s t : State} (h : step s = .next t) : t.pathMeasure < s.pathMeasure := by
  obtain ⟨-, w, i, hw, -, hi⟩ := step_next_inv h
  cases i with
  | halt =>
    obtain rfl := Host.Outcome.next.inj hi
    exact pathMeasure_lt_of_advance hw rfl rfl fun _ => rfl
  | ret => exact pathMeasure_lt_of_ret hi
  | call nnn => exact pathMeasure_lt_of_call hw hi
  | add x y =>
    obtain rfl := Host.Outcome.next.inj hi
    exact pathMeasure_lt_of_advance hw rfl rfl fun _ => rfl

/-! ### Runs -/

/-- All bounds above the number of the path give the same run. -/
theorem runFor_eq_of_pathMeasure_lt {k j : Nat} {s : State} (hk : s.pathMeasure < k) (hj : s.pathMeasure < j) :
    runFor k s = runFor j s := by
  induction k generalizing j s with
  | zero => omega
  | succ k ih =>
    obtain ⟨j, rfl⟩ := Nat.exists_eq_add_one_of_ne_zero (Nat.ne_zero_of_lt hj)
    cases hs : step s with
    | next t =>
      have hlower := step_lowers_pathMeasure hs
      rw [runFor_succ_of_next k hs, runFor_succ_of_next j hs]
      exact ih (by omega) (by omega)
    | fault f => rw [runFor_succ_of_fault k hs, runFor_succ_of_fault j hs]
    | refused r => simp only [runFor, hs]

/-- Settles O33: from the next state, one step less than the bound is as good as the bound. -/
theorem runIsTheLoopOfSteps : Obligations.RunIsTheLoopOfSteps := by
  intro s
  refine ⟨runFor_of_halted _, fun t hs => ?next, fun _ => run_of_fault⟩
  case next =>
    obtain ⟨k, hk⟩ := exists_maxRunSteps_eq_succ
    have hlower := step_lowers_pathMeasure hs
    have hbound := s.pathMeasure_lt
    rw [hk] at hbound
    calc run s = runFor (k + 1) s := by rw [run, hk]
      _ = runFor k t := runFor_succ_of_next k hs
      _ = run t := runFor_eq_of_pathMeasure_lt (by omega) t.pathMeasure_lt

end Sys2Proof.Machine

/-! HALT (R120): the one word of its row, and the state it leaves. -/

namespace Sys2Proof.Machine

/-- The dispatch of HALT (R104, R120). -/
theorem exec_halt_eq (s : State) : exec .halt s = .next ((s.setPc s.npc).setStatus .halted) := execHalt_eq s

/-- The mask of HALT's row covers the whole word, so no other word decodes to HALT (R75, R120). -/
theorem decode_eq_halt_iff {w : Word} : decode w = .instr .halt ↔ w = 0x0000 := by
  have hmask : w &&& haltRow.mask = w := BitVec.and_allOnes
  calc decode w = .instr .halt
    _ ↔ haltRow.selects w = true := decode_eq_instr_iff.trans (and_iff_left trivial)
    _ ↔ w &&& haltRow.mask = 0x0000 := OpcodeRow.selects_iff
    _ ↔ w = 0x0000 := by rw [hmask]

/-- Settles O14: the zero word decodes to HALT, which writes `pc` and the status and nothing else. -/
theorem haltStopsTheCore : Obligations.HaltStopsTheCore := by
  refine ⟨decode_eq_halt_iff.2 rfl, fun s => ⟨_, exec_halt_eq s, ?pc, ?status, ?reg, ?mem, ?slot, ?sp⟩⟩
  case pc => exact State.setStatus_pc _ _
  case status => exact State.setStatus_status _ _
  case reg | mem | slot | sp => simp

end Sys2Proof.Machine

/-! CALL and RETURN (R125 to R128): the word of each row, and the whole effect of each with what it leaves unchanged. -/

namespace Sys2Proof.Machine

/-! ### The words -/

/-- The mask of RETURN's row covers the whole word, so no other word decodes to RETURN (R75, R128). -/
theorem decode_eq_ret_iff {w : Word} : decode w = .instr .ret ↔ w = 0x00EE := by
  have hmask : w &&& retRow.mask = w := BitVec.and_allOnes
  calc decode w = .instr .ret
    _ ↔ retRow.selects w = true := decode_eq_instr_iff.trans (and_iff_left trivial)
    _ ↔ w &&& retRow.mask = 0x00EE := OpcodeRow.selects_iff
    _ ↔ w = 0x00EE := by rw [hmask]

/-- The word of CALL: its opcode above its operand (R71, R127). -/
theorem callWord_eq_append (nnn : Imm12) : 0x2000 ||| nnn.setWidth 16 = 0x2#4 ++ nnn := by
  rw [BitVec.append_def, BitVec.setWidth'_eq]
  rfl

theorem decode_callWord (nnn : Imm12) : decode (0x2000 ||| nnn.setWidth 16) = .instr (.call nnn) := by
  rw [callWord_eq_append]
  refine decode_eq_instr_iff.2 ⟨callRow_selects_iff.2 ?opcode, ?operand⟩
  case opcode => exact BitVec.extractLsb'_append_eq_left
  case operand => exact BitVec.extractLsb'_append_eq_right.symm

theorem callTarget_toNat (nnn : Imm12) : (callTarget nnn).toNat = nnn.toNat := by
  exact BitVec.toNat_setWidth_of_le (by decide)

/-- The address after a fetched instruction, as a number: a fetch leaves room for it (R102, R17). -/
theorem State.npc_toNat {s : State} {w : Word} (h : s.fetch = .ok w) : s.npc.toNat = s.pc.toNat + 2 := by
  have hpc := (State.fetch_eq_ok.1 h).1
  rw [State.npc_eq_ofNat, BitVec.toNat_ofNat]
  omega

/-! ### The effects -/

/-- Everything a CALL does to the state, and everything it leaves (R127). -/
structure CallEffect (nnn : Imm12) (s t : State) : Prop where
  room : s.sp.val < 16
  sp : t.sp.val = s.sp.val + 1
  pc : t.pc = callTarget nnn
  slot : ∀ i : Fin 16, t.slot i = if s.sp.val = i.val then s.npc else s.slot i
  x : t.x = s.x
  mem : t.mem = s.mem
  status : t.status = s.status

theorem callEffect_of_exec {nnn : Imm12} {s t : State} (h : exec (.call nnn) s = .next t) : CallEffect nnn s t := by
  obtain ⟨u, hu, rfl⟩ := execCall_eq_next.1 h
  have hslot := State.slot_of_push hu
  obtain ⟨hroom, rfl⟩ := State.push_eq_ok.1 hu
  exact ⟨hroom, rfl, rfl, hslot, rfl, rfl, rfl⟩

theorem exec_call_of_lt {nnn : Imm12} {s : State} (h : s.sp.val < 16) :
    ∃ t, exec (.call nnn) s = .next t ∧ CallEffect nnn s t := by
  have hnext : exec (.call nnn) s = .next _ := execCall_eq_next.2 ⟨_, State.push_eq_ok.2 ⟨h, rfl⟩, rfl⟩
  exact ⟨_, hnext, callEffect_of_exec hnext⟩

theorem exec_call_of_full {nnn : Imm12} {s : State} (h : s.sp.val = 16) :
    exec (.call nnn) s = .fault .stackOverflow :=
  execCall_eq_fault.2 ⟨h, rfl⟩

/-- Everything a RETURN does to the state, and everything it leaves: no slot is written (R126, R128). -/
structure RetEffect (s t : State) : Prop where
  sp : t.sp.val + 1 = s.sp.val
  pc : ∀ i : Fin 16, s.sp.val = i.val + 1 → t.pc = s.slot i
  stack : t.stack = s.stack
  x : t.x = s.x
  mem : t.mem = s.mem
  status : t.status = s.status

theorem retEffect_of_exec {s t : State} (h : exec .ret s = .next t) : RetEffect s t := by
  obtain ⟨v, u, hu, rfl⟩ := execRet_eq_next.1 h
  obtain ⟨hpos, rfl, rfl⟩ := State.pop_eq_ok.1 hu
  refine ⟨Nat.sub_add_cancel hpos, fun i hi => ?top, rfl, rfl, rfl, rfl⟩
  case top => simp [hi]

theorem exec_ret_of_pos {s : State} (h : 0 < s.sp.val) : ∃ t, exec .ret s = .next t ∧ RetEffect s t := by
  have hnext : exec .ret s = .next _ := execRet_eq_next.2 ⟨_, _, State.pop_eq_ok.2 ⟨h, rfl, rfl⟩, rfl⟩
  exact ⟨_, hnext, retEffect_of_exec hnext⟩

theorem exec_ret_eq_underflow_iff {s : State} : exec .ret s = .fault .stackUnderflow ↔ s.sp.val = 0 :=
  execRet_eq_fault.trans (and_iff_left rfl)

/-- A Running core that fetches 0x00EE runs RETURN (R104, R128). -/
theorem step_eq_exec_ret {s : State} (hst : s.status = .running) (hw : s.fetch = .ok 0x00EE) : step s = exec .ret s :=
  step_eq_exec hst hw (decode_eq_ret_iff.2 rfl)

/-! ### The statements of one instruction -/

/-- Settles O15: the word, and the effect of CALL field by field. -/
theorem callPushesAndJumps : Obligations.CallPushesAndJumps := by
  refine ⟨decode_callWord, fun nnn s => ⟨fun i hi => ?room, exec_call_of_full⟩⟩
  case room =>
    obtain ⟨t, hnext, ht⟩ := exec_call_of_lt (nnn := nnn) (hi ▸ i.isLt)
    refine ⟨t, hnext, ?slot, ht.sp, ?pc, fun k hk => ?others, fun r => ?reg, fun a => ?mem, ht.status⟩
    case slot => rw [ht.slot, if_pos hi, State.npc]
    case pc => rw [ht.pc, callTarget_toNat]
    case others => rw [ht.slot, if_neg fun hki => hk (Fin.ext (hki.symm.trans hi))]
    case reg => rw [State.reg, State.reg, ht.x]
    case mem => rw [ht.mem]

/-- Settles O16: the word, and the effect of RETURN field by field. -/
theorem returnPopsTheTopSlot : Obligations.ReturnPopsTheTopSlot := by
  refine ⟨decode_eq_ret_iff.2 rfl, fun s => ⟨fun i hi => ?live, exec_ret_eq_underflow_iff.2⟩⟩
  case live =>
    obtain ⟨t, hnext, ht⟩ := exec_ret_of_pos (s := s) (by omega)
    have hsp := ht.sp
    refine ⟨t, hnext, ht.pc i hi, by omega, fun k => ?slot, fun r => ?reg, fun a => ?mem, ht.status⟩
    case slot => rw [State.slot, State.slot, ht.stack]
    case reg => rw [State.reg, State.reg, ht.x]
    case mem => rw [ht.mem]

/-- Settles O24: the underflow condition of `pop`, and the run that ends in it. -/
theorem returnUnderflowsExactlyAtZero : Obligations.ReturnUnderflowsExactlyAtZero := by
  intro s
  refine ⟨exec_ret_eq_underflow_iff, fun hone => ?one, fun hst hw hzero => ?zero⟩
  case one =>
    obtain ⟨t, hnext, ht⟩ := exec_ret_of_pos (s := s) (by omega)
    have hsp := ht.sp
    exact ⟨t, hnext, by omega⟩
  case zero => exact run_of_fault ((step_eq_exec_ret hst hw).trans (exec_ret_eq_underflow_iff.2 hzero))

/-- Settles O30: HALT and ADD commit `npc`. -/
theorem onlyCallAndReturnTransferControl : Obligations.OnlyCallAndReturnTransferControl := by
  intro i s t h hpc
  cases i with
  | halt | add =>
    obtain rfl := Host.Outcome.next.inj h
    exact absurd rfl hpc
  | ret => exact .inl rfl
  | call nnn => exact .inr ⟨nnn, rfl⟩

end Sys2Proof.Machine

/-! The matching RETURN (R129): no step writes a live slot, so while `sp` stays above a CALL's slot the slot holds the
return address. -/

namespace Sys2Proof.Machine

/-- Only the slot `sp` indexes can be written (R125). -/
theorem exec_keeps_slot {i : Instr} {s t : State} (h : exec i s = .next t) {k : Fin 16} (hk : s.sp.val ≠ k.val) :
    t.slot k = s.slot k := by
  cases i with
  | halt | add =>
    obtain rfl := Host.Outcome.next.inj h
    rfl
  | ret => rw [State.slot, State.slot, (retEffect_of_exec h).stack]
  | call nnn => rw [(callEffect_of_exec h).slot, if_neg hk]

/-- A slot that is live all the way keeps its value. -/
theorem StepsAbove.slot_eq {k : Fin 16} {s t : State} (h : StepsAbove k.val s t) : t.slot k = s.slot k := by
  induction h with
  | here => rfl
  | step s t u habove hs _ ih =>
    obtain ⟨-, _, _, -, -, hexec⟩ := step_next_inv hs
    exact ih.trans (exec_keeps_slot hexec habove.ne')

/-- A step that runs a CALL has the CALL's effect. -/
theorem callEffect_of_step {s t : State} {w : Word} {nnn : Imm12} (hw : s.fetch = .ok w)
    (hd : decode w = .instr (.call nnn)) (hs : step s = .next t) : CallEffect nnn s t :=
  callEffect_of_exec ((step_eq_exec (step_next_inv hs).1 hw hd).symm.trans hs)

/-- Settles O26: the RETURN takes the CALL's slot, which still holds the CALL's `npc`. -/
theorem matchingReturnResumesAfterTheCall : Obligations.MatchingReturnResumesAfterTheCall := by
  intro s t u w nnn hw hd hs habove hst hsp hret
  have ht := callEffect_of_step hw hd hs
  obtain ⟨v, hnext, hv⟩ := exec_ret_of_pos (s := u) (by omega)
  refine ⟨v, (step_eq_exec_ret hst hret).trans hnext, ?pc, Fin.ext ?sp⟩
  case pc =>
    obtain ⟨k, hk⟩ : ∃ k : Fin 16, s.sp.val = k.val := ⟨⟨s.sp.val, ht.room⟩, rfl⟩
    rw [hk] at habove hsp
    calc v.pc.toNat = (u.slot k).toNat := by rw [hv.pc k hsp]
      _ = (t.slot k).toNat := by rw [habove.slot_eq]
      _ = s.npc.toNat := by rw [ht.slot, if_pos hk]
      _ = s.pc.toNat + 2 := State.npc_toNat hw
  case sp =>
    have hvsp := hv.sp
    omega

/-- Settles O25: the way between with no step in it. -/
theorem callThenReturnResumesAfterTheCall : Obligations.CallThenReturnResumesAfterTheCall := by
  intro s t w nnn hw hd hs hret
  have ht := callEffect_of_step hw hd hs
  have habove : StepsAbove s.sp.val t t := .here t (by have := ht.sp; omega)
  have hst : t.status = .running := ht.status.trans (step_next_inv hs).1
  exact matchingReturnResumesAfterTheCall s t t w nnn hw hd hs habove hst ht.sp hret

end Sys2Proof.Machine

/-! CALLs one after another (R130): each fills the next slot with its own address plus 2, until the stack is full. -/

namespace Sys2Proof.Machine

theorem callAll_cons_of_next {n : Imm12} {ns : List Imm12} {s t : State} (h : exec (.call n) s = .next t) :
    callAll (n :: ns) s = callAll ns t := by
  simp only [callAll, h]

theorem callAll_cons_of_fault {n : Imm12} {ns : List Imm12} {s : State} {f : Fault} (h : exec (.call n) s = .fault f) :
    callAll (n :: ns) s = .fault f := by
  simp only [callAll, h]

/-- Where the `j`-th of the CALLs stands: the first at `pc`, each later one where the one before it went. -/
def callAddress (pc : Word) (ns : List Imm12) : Nat → Word
  | 0 => pc
  | j + 1 => callTarget (ns.getD j 0)

theorem callAddress_cons_succ (pc : Word) (n : Imm12) (ns : List Imm12) (j : Nat) :
    callAddress pc (n :: ns) (j + 1) = callAddress (callTarget n) ns j := by
  cases j <;> rfl

theorem callAddress_eq_ite (pc : Word) (ns : List Imm12) (j : Nat) :
    callAddress pc ns j = if j = 0 then pc else (ns.getD (j - 1) 0).setWidth 16 := by
  cases j <;> rfl

/-- While there is room, the CALLs take `sp` up by their number, fill the slots from the old `sp` upwards and leave the
slots below it. -/
theorem callAll_of_room {ns : List Imm12} {s : State} (h : s.sp.val + ns.length ≤ 16) :
    ∃ t, callAll ns s = .next t ∧ t.sp.val = s.sp.val + ns.length ∧
      (∀ i : Fin 16, i.val < s.sp.val → t.slot i = s.slot i) ∧
      ∀ (i : Fin 16) (j : Nat), j < ns.length → i.val = s.sp.val + j → t.slot i = callAddress s.pc ns j + 2 := by
  induction ns generalizing s with
  | nil => exact ⟨s, rfl, rfl, fun _ _ => rfl, fun _ _ hj => absurd hj (Nat.not_lt_zero _)⟩
  | cons n ns ih =>
    rw [List.length_cons] at h ⊢
    obtain ⟨u, hnext, hu⟩ := exec_call_of_lt (nnn := n) (s := s) (by omega)
    have husp := hu.sp
    obtain ⟨t, ht, hsp, hbelow, hfilled⟩ := ih (s := u) (by omega)
    refine ⟨t, (callAll_cons_of_next hnext).trans ht, by omega, fun i hi => ?below, fun i j hj hi => ?filled⟩
    case below => rw [hbelow i (by omega), hu.slot, if_neg hi.ne']
    case filled =>
      cases j with
      | zero =>
        rw [Nat.add_zero] at hi
        rw [hbelow i (by omega), hu.slot, if_pos hi.symm]
        rfl
      | succ j => rw [hfilled i j (by omega) (by omega), hu.pc, callAddress_cons_succ]

/-- More CALLs than there is room for end in the overflow. -/
theorem callAll_of_overflow {ns : List Imm12} {s : State} (h : 16 < s.sp.val + ns.length) :
    callAll ns s = .fault .stackOverflow := by
  induction ns generalizing s with
  | nil =>
    rw [List.length_nil] at h
    omega
  | cons n ns ih =>
    rw [List.length_cons] at h
    obtain hfull | hroom : s.sp.val = 16 ∨ s.sp.val < 16 := by omega
    · exact callAll_cons_of_fault (exec_call_of_full hfull)
    · obtain ⟨u, hnext, hu⟩ := exec_call_of_lt (nnn := n) hroom
      have husp := hu.sp
      exact (callAll_cons_of_next hnext).trans (ih (by omega))

/-- Settles O23: the CALLs from the empty stack, and the run that ends at the full one. -/
theorem nestedCallsFillExactlySixteenSlots : Obligations.NestedCallsFillExactlySixteenSlots := by
  refine ⟨fun ns s hzero => ⟨fun hlen => ?fits, fun hlen => callAll_of_overflow (by omega)⟩,
    fun s w nnn hst hw hd hfull => ?full⟩
  case fits =>
    obtain ⟨t, ht, hsp, -, hfilled⟩ := callAll_of_room (ns := ns) (s := s) (by omega)
    refine ⟨t, ht, by omega, fun i hi => ?_⟩
    rw [hfilled i i.val hi (by omega), callAddress_eq_ite]
  case full => exact run_of_fault ((step_eq_exec hst hw hd).trans (exec_call_of_full hfull))

end Sys2Proof.Machine

/-! No step reads a register to choose its way (R132): two states that differ in the registers alone go to states that
differ in the registers alone, so a step and a run do. -/

namespace Sys2Proof.Machine

section
variable {s s' : State} (h : SameControl s s')
include h

/-- States that agree on all but the registers are one state with other registers. -/
theorem SameControl.exists_x : ∃ x, s' = { s with x := x } := by
  obtain ⟨hmem, hpc, hstack, hsp, hst⟩ := h
  exact ⟨s'.x, by rw [hmem, hpc, hstack, hsp, hst]⟩

theorem SameControl.status_eq : s'.status = s.status := by
  obtain ⟨-, -, -, -, hst⟩ := h
  exact hst.symm

/-- The fetch reads memory and `pc`, no register (R101). -/
theorem SameControl.fetch_eq : s'.fetch = s.fetch := by
  obtain ⟨x, rfl⟩ := h.exists_x
  rfl

theorem SameControl.sp_eq : s'.sp = s.sp := by
  obtain ⟨-, -, -, hsp, -⟩ := h
  exact hsp.symm

/-- Execution writes memory, `pc`, the stack, `sp` and the status from these alone. -/
theorem SameControl.exec {i : Instr} {t : State} (hi : exec i s = .next t) :
    ∃ t', exec i s' = .next t' ∧ SameControl t t' := by
  obtain ⟨x, rfl⟩ := h.exists_x
  cases i with
  | halt | add =>
    obtain rfl := Host.Outcome.next.inj hi
    exact ⟨_, rfl, rfl, rfl, rfl, rfl, rfl⟩
  | ret =>
    obtain ⟨v, u, hu, rfl⟩ := execRet_eq_next.1 hi
    obtain ⟨hpos, rfl, rfl⟩ := State.pop_eq_ok.1 hu
    exact ⟨_, execRet_eq_next.2 ⟨_, _, State.pop_eq_ok.2 ⟨hpos, rfl, rfl⟩, rfl⟩, rfl, rfl, rfl, rfl, rfl⟩
  | call nnn =>
    obtain ⟨u, hu, rfl⟩ := execCall_eq_next.1 hi
    obtain ⟨hroom, rfl⟩ := State.push_eq_ok.1 hu
    exact ⟨_, execCall_eq_next.2 ⟨_, State.push_eq_ok.2 ⟨hroom, rfl⟩, rfl⟩, rfl, rfl, rfl, rfl, rfl⟩

theorem SameControl.step_next {t : State} (hs : step s = .next t) : ∃ t', step s' = .next t' ∧ SameControl t t' := by
  obtain ⟨hst, w, i, hw, hi, ht⟩ := step_next_inv hs
  rw [step_eq_exec (h.status_eq ▸ hst) (h.fetch_eq ▸ hw) hi]
  exact h.exec ht

/-- Whether a step faults is decided by the status, the fetch and `sp`, none of them a register. -/
theorem SameControl.step_fault {f : Fault} (hs : step s = .fault f) : step s' = .fault f := by
  simpa only [step_eq_fault, exec_eq_fault, h.status_eq, h.fetch_eq, h.sp_eq] using hs

end

theorem stepSimulation_sameControl : StepSimulation SameControl :=
  fun _ _ h => ⟨h.status_eq.symm, fun _ => h.step_next, fun _ => h.step_fault⟩

/-- Settles O37: `SameControl` is kept by every step, so by every run. -/
theorem registersDoNotSteerARun : Obligations.RegistersDoNotSteerARun := by
  intro s s' h
  exact ⟨fun _ => h.step_next, fun _ => h.step_fault, fun _ _ => stepSimulation_sameControl.run h⟩

end Sys2Proof.Machine

/-! ADD (R140 to R144): the ALU as addition of numbers, the word of ADD, and its whole effect. -/

namespace Sys2Proof.Machine

/-! ### The word -/

/-- The word of ADD: its operands placed between the two halves of its opcode (R71, R141). -/
theorem encode_add_eq_or (x y : RegIx) :
    encode (.add x y) = 0x8004#16 ||| x.setWidth 16 <<< 8 ||| y.setWidth 16 <<< 4 := by
  have hfields : encode (.add x y) = 0x8000#16 ||| x.setWidth 16 <<< 8 ||| y.setWidth 16 <<< 4 ||| 0x0004#16 :=
    (BitVec.setWidth_eq _).symm.trans BitVec.setWidth_append_append_append_eq_shiftLeft_setWidth_or
  have hopcode : 0x8004#16 = 0x8000#16 ||| 0x0004#16 := rfl
  rw [hfields, hopcode]
  ac_rfl

/-- The four digits of ADD's word in base 16 are its fields, so each is read back by division (R71). -/
theorem encode_add_toNat (x y : RegIx) : (encode (.add x y)).toNat = 0x8004 + 256 * x.toNat + 16 * y.toNat := by
  rw [encode, BitVec.toNat_append, ← Nat.shiftLeft_add_eq_or_of_lt (BitVec.isLt _), BitVec.toNat_append,
    ← Nat.shiftLeft_add_eq_or_of_lt y.isLt, BitVec.toNat_append, ← Nat.shiftLeft_add_eq_or_of_lt x.isLt]
  simp only [Nat.shiftLeft_eq, BitVec.toNat_ofNat]
  omega

theorem decode_encode_add (x y : RegIx) : decode (encode (.add x y)) = .instr (.add x y) := by
  have hx := x.isLt
  have hy := y.isLt
  refine decode_eq_instr_iff.2 ⟨addRow_selects_iff.2 ?opcode, ?operands⟩
  case opcode =>
    simp only [BitVec.toNat_eq, fieldC_toNat, fieldD_toNat, encode_add_toNat, BitVec.ofNat_eq_ofNat, BitVec.toNat_ofNat]
    omega
  case operands =>
    simp only [Instr.readsFields, BitVec.toNat_eq, fieldX_toNat, fieldY_toNat, encode_add_toNat]
    omega

/-! ### The ALU -/

theorem add8_fst_eq_add (a b : Byte) : (add8 a b).1 = a + b :=
  BitVec.eq_of_toNat_eq ((add8_fst_toNat a b).trans (BitVec.toNat_add a b).symm)

/-- Two bytes make no sum of 512, so the carry is 1 as soon as the sum leaves the byte (R140). -/
theorem add8_snd_eq_ite (a b : Byte) : (add8 a b).2 = if 255 < a.toNat + b.toNat then 1 else 0 := by
  have ha := a.isLt
  have hb := b.isLt
  rw [← BitVec.toNat_inj, add8_snd_toNat, apply_ite BitVec.toNat]
  simp only [BitVec.ofNat_eq_ofNat, BitVec.toNat_ofNat]
  split <;> omega

/-- Settles O17: the sum is the low byte of the exact sum, the carry its ninth bit. -/
theorem add8IsUnsignedAddition : Obligations.Add8IsUnsignedAddition :=
  fun a b => ⟨add8_fst_toNat a b, add8_snd_eq_ite a b⟩

theorem carryByte_toNat (cy : BitVec 1) : (carryByte cy).toNat = cy.toNat :=
  BitVec.toNat_setWidth_of_le (by decide)

theorem carryByte_add8_toNat (a b : Byte) : (carryByte (add8 a b).2).toNat = (a.toNat + b.toNat) / 256 :=
  (carryByte_toNat _).trans (add8_snd_toNat a b)

theorem carryByte_add8_eq_ite (a b : Byte) :
    carryByte (add8 a b).2 = if 255 < a.toNat + b.toNat then 1 else 0 := by
  rw [add8_snd_eq_ite, apply_ite carryByte]
  rfl

/-- A byte added to itself leaves the byte exactly when its top bit is 1 (R144). -/
theorem carryByte_add8_self (a : Byte) : carryByte (add8 a a).2 = if a.msb then 1 else 0 := by
  have htop : a.msb = true ↔ 255 < a.toNat + a.toNat := by
    rw [BitVec.msb_eq_true_iff_two_mul_ge]
    omega
  simp only [carryByte_add8_eq_ite, htop]

/-! ### The effect -/

/-- Everything an ADD does to the state, and everything it leaves; the carry is the later write (R141, R142). -/
structure AddEffect (x y : RegIx) (s t : State) : Prop where
  reg : ∀ r, t.reg r =
    if r = 15 then carryByte (add8 (s.reg x) (s.reg y)).2 else if r = x then s.reg x + s.reg y else s.reg r
  pc : t.pc = s.npc
  mem : t.mem = s.mem
  stack : t.stack = s.stack
  sp : t.sp = s.sp
  status : t.status = s.status

/-- ADD completes from every state (R141). -/
theorem exec_add_next (x y : RegIx) (s : State) : ∃ t, exec (.add x y) s = .next t ∧ AddEffect x y s t := by
  refine ⟨_, execAdd_eq x y s, fun r => ?reg, rfl, rfl, rfl, rfl, rfl⟩
  case reg => rw [State.setPc_reg, State.reg_setCarry, State.reg_setReg, add8_fst_eq_add]

section
variable {x y : RegIx} {s t : State} (h : AddEffect x y s t)
include h

theorem AddEffect.reg_flag : t.reg 15 = carryByte (add8 (s.reg x) (s.reg y)).2 :=
  (h.reg 15).trans (if_pos rfl)

theorem AddEffect.flag_toNat : (t.reg 15).toNat = ((s.reg x).toNat + (s.reg y).toNat) / 256 := by
  rw [h.reg_flag, carryByte_add8_toNat]

theorem AddEffect.reg_dest (hx : x ≠ 15) : t.reg x = s.reg x + s.reg y := by
  rw [h.reg, if_neg hx, if_pos rfl]

end

/-! ### The statements -/

/-- Settles O19: the word, and the effect of ADD field by field. -/
theorem addWritesSumAndCarry : Obligations.AddWritesSumAndCarry := by
  refine ⟨fun x y => encode_add_eq_or x y ▸ decode_encode_add x y, fun x y s => ?effect⟩
  obtain ⟨t, hnext, ht⟩ := exec_add_next x y s
  refine ⟨t, hnext, fun r => ?reg, ht.pc, fun a => ?mem, fun k => ?slot, ht.sp, ht.status⟩
  case reg =>
    rw [ht.reg, carryByte_add8_eq_ite, ← add8_fst_toNat, BitVec.ofNat_toNat, BitVec.setWidth_eq, add8_fst_eq_add]
  case mem => rw [ht.mem]
  case slot => rw [State.slot, State.slot, ht.stack]

/-- Settles O20: for destination 15 the only register written is 15, and last with the carry. -/
theorem addToRegister15KeepsOnlyTheCarry : Obligations.AddToRegister15KeepsOnlyTheCarry := by
  intro y s
  obtain ⟨t, hnext, ht⟩ := exec_add_next 15 y s
  refine ⟨t, hnext, ht.flag_toNat, fun r hr => ?others⟩
  case others => rw [ht.reg, if_neg hr, if_neg hr]

/-- Settles O21: the sum and the carry are both taken of the old `x[15]`. -/
theorem addOfRegister15ReadsTheOldFlag : Obligations.AddOfRegister15ReadsTheOldFlag := by
  intro x s hx
  obtain ⟨t, hnext, ht⟩ := exec_add_next x 15 s
  exact ⟨t, hnext, ht.reg_dest hx, ht.flag_toNat⟩

/-- Settles O22: the sum of two equal bytes, and its carry. -/
theorem addToItselfDoubles : Obligations.AddToItselfDoubles := by
  intro x s
  obtain ⟨t, hnext, ht⟩ := exec_add_next x x s
  refine ⟨t, hnext, fun hx => ?double, ?carry⟩
  case double => rw [ht.reg_dest hx, BitVec.toNat_add, two_mul]
  case carry => rw [ht.reg_flag, carryByte_add8_self]

end Sys2Proof.Machine

/-! The faults of a step (R150 to R156), what a run that ends says of its last state (R110, R160), and the report of it
(R164). -/

namespace Sys2Proof.Machine

/-! ### Which step raises which fault -/

/-- The dispatcher's fault, by legality of the word (R154). -/
theorem exists_unsupported_iff {w : Word} {f : Fault} :
    (∃ v, decode w = .unsupported v ∧ f = .unsupportedOpcode v) ↔ legalWord w = false ∧ f = .unsupportedOpcode w := by
  simp only [decode_eq_unsupported_iff, and_assoc, exists_eq_left]

/-- A legal word can fault in two ways, as CALL on a full stack and as RETURN on an empty one (R153, R156). -/
theorem exists_instr_fault_iff {w : Word} {s : State} {f : Fault} :
    (∃ i, decode w = .instr i ∧ exec i s = .fault f) ↔
      (∃ nnn, decode w = .instr (.call nnn) ∧ s.sp.val = 16 ∧ f = .stackOverflow) ∨
        (decode w = .instr .ret ∧ s.sp.val = 0 ∧ f = .stackUnderflow) := by
  simp only [exec_eq_fault]
  constructor
  · rintro ⟨_, hd, ⟨rfl, hret⟩ | ⟨⟨nnn, rfl⟩, hcall⟩⟩
    · exact .inr ⟨hd, hret⟩
    · exact .inl ⟨nnn, hd, hcall⟩
  · rintro (⟨nnn, hd, hcall⟩ | ⟨hd, hret⟩)
    · exact ⟨_, hd, .inr ⟨⟨nnn, rfl⟩, hcall⟩⟩
    · exact ⟨_, hd, .inl ⟨rfl, hret⟩⟩

/-- Settles O12: the three ways to fault of `step_eq_fault`, each by the words that take it. -/
theorem stepFaultsExactlyWhen : Obligations.StepFaultsExactlyWhen := by
  intro s f hst
  rw [step_eq_fault, and_iff_right hst, State.fetch_eq_error]
  refine or_congr_right (exists_congr fun w => and_congr_right' ?word)
  rw [exists_unsupported_iff, exists_instr_fault_iff, or_comm, or_assoc]

/-- Of a word fetched, the fault of an illegal word says that it is illegal, and which word it is (R154). -/
theorem step_eq_unsupportedOpcode_iff {s : State} {w v : Word} (hst : s.status = .running) (hw : s.fetch = .ok w) :
    step s = .fault (.unsupportedOpcode v) ↔ v = w ∧ legalWord w = false := by
  simp [stepFaultsExactlyWhen s _ hst, hw, and_comm]

theorem Fault.code_eq_four_iff {f : Fault} : f.code = 4 ↔ ∃ w, f = .unsupportedOpcode w := by
  cases f <;> simp [Fault.code]

/-- Settles O13: the payload is the word fetched, and no other kind has its code. -/
theorem illegalWordRaisesUnsupportedOpcode : Obligations.IllegalWordRaisesUnsupportedOpcode := by
  refine ⟨fun s w hst hw => ⟨?illegal, fun v hstep => ?payload⟩, fun _ => Fault.code_eq_four_iff⟩
  case illegal => rw [step_eq_unsupportedOpcode_iff hst hw, and_iff_right rfl]
  case payload => exact ((step_eq_unsupportedOpcode_iff hst hw).1 hstep).1

/-! ### The end of a run -/

/-- A run that ends stands in a Halted state, or in one whose step is the fault reported (R107, R110). -/
theorem runFor_ends {k : Nat} {s t : State} {e : RunEnd} (h : runFor k s = some (t, e)) :
    (t.status = .halted ∧ e = .ok) ∨ ∃ f, step t = .fault f ∧ e = .err f := by
  induction k generalizing s with
  | zero =>
    obtain ⟨hst, rfl, rfl⟩ : s.status = .halted ∧ s = t ∧ .ok = e := by simpa [runFor] using h
    exact .inl ⟨hst, rfl⟩
  | succ k ih =>
    obtain ⟨hst, rfl, rfl⟩ | ⟨u, -, hu⟩ | ⟨f, hs, rfl, rfl⟩ := runFor_succ_eq_some h
    · exact .inl ⟨hst, rfl⟩
    · exact ih hu
    · exact .inr ⟨f, hs, rfl⟩

/-- Settles O36: a step that faults is a Running core's, and ends the run and the transaction where it stands. -/
theorem faultChangesNothingAndIsReported : Obligations.FaultChangesNothingAndIsReported :=
  fun _ _ h => ⟨(step_eq_fault.1 h).1, run_of_fault h, transact_run_of_fault h⟩

/-- Settles O35: the two endings of `runFor_ends`, from each of which a run ends at once in the same way. -/
theorem runEndsAsReported : Obligations.RunEndsAsReported := by
  intro s t e hrun
  obtain ⟨hst, rfl⟩ | ⟨f, hs, rfl⟩ := runFor_ends hrun
  · exact ⟨fun _ => hst, nofun, runFor_of_halted _ hst⟩
  · obtain ⟨hst, hagain, -⟩ := faultChangesNothingAndIsReported t f hs
    refine ⟨nofun, fun g hg => ?reported, hagain⟩
    case reported =>
      obtain rfl := RunEnd.err.inj hg
      exact ⟨hst, hs⟩

/-! ### The report -/

/-- `fault_insn` holds a word for code 4 alone (R164). -/
theorem RunEnd.faultInsn_of_code_ne_four {e : RunEnd} (h : e.faultCode ≠ 4) : e.faultInsn = 0 := by
  cases e with
  | ok => rfl
  | err f =>
    cases f with
    | unsupportedOpcode w => exact absurd rfl h
    | addressingFault | stackOverflow | stackUnderflow => rfl

/-- Settles O39: the outputs of each ending, read off their definitions. -/
theorem faultReportOutputs : Obligations.FaultReportOutputs :=
  ⟨rfl, rfl, rfl, rfl, fun _ => ⟨rfl, rfl⟩, fun _ => RunEnd.faultInsn_of_code_ne_four⟩

end Sys2Proof.Machine

/-! Every run ends (R198): the number of the path falls from step to step, so a run meets a halted core or a fault. -/

namespace Sys2Proof.Machine

/-- Only a halted core has no step (R100): the fetch, the decoder and the instructions answer with a state or a fault. -/
theorem status_of_step_eq_refused {s : State} {r : Refusal} (h : step s = .refused r) : s.status = .halted := by
  unfold step at h
  split at h
  next hst => exact hst
  next =>
    split at h
    next => simp [raise] at h
    next =>
      split at h
      next i _ => exact absurd h (exec_ne_refused i s r)
      next => simp [raiseUnsupported, raise] at h

/-- Settles O34, by induction on the number of the path, which every step lowers. -/
theorem everyRunEnds : Obligations.EveryRunEnds := by
  intro s
  induction s using (measure State.pathMeasure).wf.induction with
  | h s ih =>
    obtain ⟨hhalted, hnext, hfault⟩ := runIsTheLoopOfSteps s
    cases hs : step s with
    | next t =>
      rw [hnext t hs]
      exact ih t (step_lowers_pathMeasure hs)
    | fault f => exact ⟨s, .err f, hfault f hs⟩
    | refused r => exact ⟨s, .ok, hhalted (status_of_step_eq_refused hs)⟩

end Sys2Proof.Machine

/-! The host's transactions on registers and memory (R183 to R187): what each answers in range, and that out of range it
answers AddressingFault and changes nothing (R152). -/

namespace Sys2Proof.Machine

/-! ### Registers -/

/-- An index that is no register fails the range check on its full value (R13). -/
theorem regIndex_of_ge {index : Nat} (h : 16 ≤ index) : regIndex index = .error .addressingFault :=
  dif_neg (Nat.not_lt_of_le h)

/-- Settles O46: the range check of the index, then the register write read back. -/
theorem setRegisterTransaction : Obligations.SetRegisterTransaction := by
  intro index value s
  refine ⟨fun h => ?outside, fun i hi => ⟨s.setReg i value, ?inside, ?reads, rfl, rfl, rfl, rfl, rfl⟩⟩
  case outside => simp only [transact, setRegister, regIndex_of_ge h, answerWrite]
  case inside => simp only [transact, setRegister, regIndex_eq_ok.2 hi, answerWrite]
  case reads => exact fun r => s.reg_setReg i r value

/-- Settles O47: the range check of the index, then the register read. -/
theorem getRegisterTransaction : Obligations.GetRegisterTransaction := by
  intro index s
  refine ⟨fun h => ?outside, fun i hi => ?inside⟩
  case outside => simp only [transact, getRegister, regIndex_of_ge h, answerRead]
  case inside => simp only [transact, getRegister, regIndex_eq_ok.2 hi, answerRead]

/-! ### Single bytes -/

/-- Settles O48: the checked write of a sequence of one byte. -/
theorem writeByteTransaction : Obligations.WriteByteTransaction := by
  intro address value s
  refine ⟨fun h => ?outside, fun h hm =>
    ⟨{ s with mem := s.mem.write address value }, ?inside, ?reads, rfl, rfl, rfl, rfl, rfl⟩⟩
  case outside =>
    have hwrite := memWrite_of_lt (bytes := [value]) (s := s) (Nat.lt_succ_of_le h)
    simp only [transact, writeByte, hwrite, answerWrite]
  case inside =>
    have hwrite := memWrite_of_le (bytes := [value]) (s := s) (Nat.succ_le_of_lt h)
    simp only [transact, writeByte, hwrite, answerWrite, Memory.writeAll]
  case reads => exact fun a => Memory.read_write address value a hm

/-- Settles O49: the checked read of one byte. -/
theorem readByteTransaction : Obligations.ReadByteTransaction := by
  intro address s
  refine ⟨fun h => ?outside, fun h => ?inside⟩
  case outside => simp only [transact, readByte, memRead1_of_lt (Nat.lt_succ_of_le h), answerRead]
  case inside => simp only [transact, readByte, memRead1_of_le (Nat.succ_le_of_lt h), answerRead]

/-! ### Ranges of bytes -/

/-- A range in memory that the sequence fills passes the three checks and is overwritten (R186). -/
theorem loadRange_of_valid {start stop : Nat} {bytes : List Byte} (s : State) (hle : start ≤ stop) (htop : stop ≤ 4096)
    (hlen : stop - start = bytes.length) :
    loadRange start stop bytes s = .ok { s with mem := s.mem.writeAll start bytes } := by
  rw [loadRange, if_neg hle.not_gt, if_neg htop.not_gt, if_neg (not_not_intro hlen)]

/-- Each of the three checks alone makes the load fail (R186). -/
theorem loadRange_of_invalid {start stop : Nat} {bytes : List Byte} (s : State)
    (h : stop < start ∨ 4096 < stop ∨ stop - start ≠ bytes.length) :
    loadRange start stop bytes s = .error .addressingFault := by
  unfold loadRange
  split_ifs with hle htop hlen
  case neg => exact absurd h (not_or.2 ⟨hle, not_or.2 ⟨htop, hlen⟩⟩)
  all_goals rfl

/-- Settles O50: the three checks, then the read after the write of the sequence. -/
theorem loadRangeTransaction : Obligations.LoadRangeTransaction := by
  intro start stop bytes s
  refine ⟨fun h => ?outside, fun hle htop hlen hm =>
    ⟨{ s with mem := s.mem.writeAll start bytes }, ?inside, ?reads, rfl, rfl, rfl, rfl, rfl⟩⟩
  case outside => simp only [transact, loadRange_of_invalid s h, answerWrite]
  case inside => simp only [transact, loadRange_of_valid s hle htop hlen, answerWrite]
  case reads =>
    obtain rfl : stop = start + bytes.length := by omega
    exact Memory.read_writeAll hm htop

end Sys2Proof.Machine

/-! The encoder against the decoder (R81): each is the inverse of the other, on words and on bytes in memory order. -/

namespace Sys2Proof

/-! ### Decode after encode -/

/-- Every operand is in range by its type (R13, R57). -/
theorem Instr.wellFormed_eq_true (i : Instr) : i.wellFormed = true := by
  cases i with
  | halt | ret => rfl
  | call nnn => exact decide_eq_true nnn.isLt
  | add x y => exact Bool.and_eq_true_iff.2 ⟨decide_eq_true x.isLt, decide_eq_true y.isLt⟩

theorem decode_encode (i : Instr) : decode (encode i) = .instr i := by
  cases i with
  | halt => exact Machine.decode_eq_halt_iff.2 rfl
  | ret => exact Machine.decode_eq_ret_iff.2 rfl
  | call nnn =>
    rw [encode, ← Machine.callWord_eq_append]
    exact Machine.decode_callWord nnn
  | add x y => exact Machine.decode_encode_add x y

/-- The two bytes of a word join to the word (R45). -/
theorem joinBytes_highByte_lowByte (w : Word) : joinBytes (highByte w) (lowByte w) = w :=
  (BitVec.extractLsb'_append_extractLsb'_eq_extractLsb' (by decide)).trans BitVec.extractLsb'_eq_self

/-- A word laid out in memory order is decoded as the word, what follows it handed back (R70). -/
theorem decodeBytes_wordBytes_append {w : Word} {i : Instr} (h : decode w = .instr i) (rest : List Byte) :
    decodeBytes (wordBytes w ++ rest) = .ok (i, rest) := by
  simp only [wordBytes, List.cons_append, List.nil_append, decodeBytes, joinBytes_highByte_lowByte, h]

/-- Settles O2: each instruction's word selects its row and holds its operands, and its bytes join to the word. -/
theorem decodeAfterEncodeIsIdentity : Obligations.DecodeAfterEncodeIsIdentity :=
  fun i rest => ⟨i.wellFormed_eq_true, decode_encode i, decodeBytes_wordBytes_append (decode_encode i) rest⟩

/-! ### Encode after decode -/

theorem encode_call_toNat (nnn : Imm12) : (encode (.call nnn)).toNat = 0x2000 + nnn.toNat := by
  rw [encode, BitVec.toNat_append, ← Nat.shiftLeft_add_eq_or_of_lt nnn.isLt]
  rfl

/-- A word is its opcode and its operands: no bit of it is lost in the decoder. -/
theorem encode_of_decode_eq_instr {w : Word} {i : Instr} (h : decode w = .instr i) : encode i = w := by
  obtain ⟨hrow, hread⟩ := decode_eq_instr_iff.1 h
  cases i with
  | halt => exact (Machine.decode_eq_halt_iff.1 h).symm
  | ret => exact (Machine.decode_eq_ret_iff.1 h).symm
  | call nnn =>
    obtain rfl : nnn = fieldNNN w := hread
    have hopcode : w.toNat / 4096 % 16 = 2 := (fieldC_toNat w).symm.trans (congrArg _ (callRow_selects_iff.1 hrow))
    refine BitVec.eq_of_toNat_eq ?_
    rw [encode_call_toNat, fieldNNN_toNat]
    omega
  | add x y =>
    obtain ⟨rfl, rfl⟩ : x = fieldX w ∧ y = fieldY w := hread
    obtain ⟨hc, hd⟩ := addRow_selects_iff.1 hrow
    have hmajor : w.toNat / 4096 % 16 = 8 := (fieldC_toNat w).symm.trans (congrArg _ hc)
    have hminor : w.toNat % 16 = 4 := (fieldD_toNat w).symm.trans (congrArg _ hd)
    refine BitVec.eq_of_toNat_eq ?_
    rw [Machine.encode_add_toNat, fieldX_toNat, fieldY_toNat]
    omega

theorem legalWord_iff_decode_eq_instr {w : Word} : legalWord w = true ↔ ∃ i, decode w = .instr i := by
  obtain ⟨i, hd, hrow, -⟩ | ⟨hd, hillegal⟩ := decode_cases w
  · simp [hd, legalWord_of_row_selects hrow]
  · simp [hd, hillegal]

/-- Settles O3: the legal words are those the decoder reads, and it reads every field of them. -/
theorem encodeAfterDecodeIsIdentity : Obligations.EncodeAfterDecodeIsIdentity :=
  fun _ => ⟨legalWord_iff_decode_eq_instr, fun _ => encode_of_decode_eq_instr⟩

/-! ### Words as numbers -/

/-- Settles O4: each operand counts the weight of its field. -/
theorem encoderPlacesFields : Obligations.EncoderPlacesFields := by
  refine ⟨rfl, rfl, encode_call_toNat, fun x y => ?add⟩
  case add =>
    rw [Machine.encode_add_toNat]
    omega

/-- Settles O6: the four legal words are encodings, the other three select no row. -/
theorem vectorWordsDecode : Obligations.VectorWordsDecode := by
  refine ⟨decode_encode .halt, decode_encode .ret, decode_encode (.call 0x0EE), decode_encode (.add 0xA 0xB), ?_, ?_, ?_⟩
  all_goals exact decode_eq_unsupported_iff.2 ⟨rfl, by decide⟩

end Sys2Proof

/-! The step around its instruction (R100 to R104): what is run, where it goes on, and when there is a step at all. -/

namespace Sys2Proof.Machine

/-- Settles O7: the decoded instruction is run at the state that fetched it. -/
theorem stepRunsDecodedInstruction : Obligations.StepRunsDecodedInstruction :=
  fun _ _ _ => step_eq_exec

/-- Settles O10: a fetch that succeeds leaves `pc` at most 4094. -/
theorem advanceDoesNotWrap : Obligations.AdvanceDoesNotWrap := by
  intro s w hw
  have hnpc := State.npc_toNat hw
  have hpc := (State.fetch_eq_ok.1 hw).1
  exact ⟨hnpc, by omega⟩

theorem step_of_halted {s : State} (h : s.status = .halted) : step s = .refused .halted := by
  simp only [step, h, noStep]

/-- Settles O11: a refusal comes from a Halted core alone. -/
theorem onlyAHaltedCoreHasNoStep : Obligations.OnlyAHaltedCoreHasNoStep := by
  refine fun s => ⟨step_of_halted, fun hrunning => ?running⟩
  case running =>
    cases hs : step s with
    | next t => exact .inl ⟨t, rfl⟩
    | fault f => exact .inr ⟨f, rfl⟩
    | refused r => simp [status_of_step_eq_refused hs] at hrunning

end Sys2Proof.Machine

/-! What an instruction that completes does to each piece of state: `sp` as a state machine (R19), and which instruction
writes a register, a slot and the status. -/

namespace Sys2Proof.Machine

theorem addEffect_of_exec {x y : RegIx} {s t : State} (h : exec (.add x y) s = .next t) : AddEffect x y s t := by
  obtain ⟨u, hu, heffect⟩ := exec_add_next x y s
  obtain rfl := Host.Outcome.next.inj (hu.symm.trans h)
  exact heffect

/-! ### The stack pointer and the slots -/

/-- Settles O27: CALL's and RETURN's effects on `sp`, which HALT and ADD do not write. -/
theorem stackPointerStateMachine : Obligations.StackPointerStateMachine := by
  intro i s t h
  cases i with
  | halt | add =>
    obtain rfl := Host.Outcome.next.inj h
    rfl
  | ret =>
    have hsp := (retEffect_of_exec h).sp
    exact ⟨by omega, hsp⟩
  | call nnn =>
    have ht := callEffect_of_exec h
    exact ⟨ht.room, ht.sp⟩

/-- Settles O31: a slot that `sp` does not index is kept by all, and the one it indexes by all but CALL. -/
theorem onlyCallWritesASlot : Obligations.OnlyCallWritesASlot := by
  intro i s t k h hk
  refine ⟨?slot, ?call⟩
  case slot =>
    by_contra hne
    exact hk (exec_keeps_slot h (Ne.symm hne))
  case call =>
    cases i with
    | halt | add =>
      obtain rfl := Host.Outcome.next.inj h
      exact absurd rfl hk
    | ret => exact absurd (by rw [State.slot, State.slot, (retEffect_of_exec h).stack]) hk
    | call nnn => exact ⟨nnn, rfl⟩

/-! ### The registers -/

theorem carryByte_eq_zero_or_one (cy : BitVec 1) : carryByte cy = 0 ∨ carryByte cy = 1 := by
  revert cy
  decide

/-- Settles O28: ADD leaves the carry in the flag register, and the other three write no register. -/
theorem onlyAddChangesRegisters : Obligations.OnlyAddChangesRegisters := by
  intro i s t h
  cases i with
  | halt =>
    obtain rfl := Host.Outcome.next.inj h
    exact .inr ⟨nofun, fun _ => rfl⟩
  | ret => exact .inr ⟨nofun, fun r => by rw [State.reg, State.reg, (retEffect_of_exec h).x]⟩
  | call nnn => exact .inr ⟨nofun, fun r => by rw [State.reg, State.reg, (callEffect_of_exec h).x]⟩
  | add x y => exact .inl ⟨⟨x, y, rfl⟩, (addEffect_of_exec h).reg_flag ▸ carryByte_eq_zero_or_one _⟩

/-! ### The status -/

/-- HALT is the one instruction that writes the status (R21, R120). -/
theorem exec_status_eq_halted_iff {i : Instr} {s t : State} (hst : s.status = .running) (h : exec i s = .next t) :
    t.status = .halted ↔ i = .halt := by
  cases i with
  | halt =>
    obtain rfl := Host.Outcome.next.inj h
    exact iff_of_true rfl rfl
  | ret => simp [(retEffect_of_exec h).status, hst]
  | call nnn => simp [(callEffect_of_exec h).status, hst]
  | add x y => simp [(addEffect_of_exec h).status, hst]

/-- Settles O29: 0x0000 is the one word of the one instruction that halts. -/
theorem onlyHaltHalts : Obligations.OnlyHaltHalts := by
  intro s t hs
  obtain ⟨hst, w, i, hw, hi, ht⟩ := step_next_inv hs
  refine ⟨hst, ?halted⟩
  calc t.status = .halted
    _ ↔ i = .halt := exec_status_eq_halted_iff hst ht
    _ ↔ decode w = .instr .halt := by rw [hi, Decoded.instr.injEq]
    _ ↔ s.fetch = .ok 0x0000 := by rw [decode_eq_halt_iff, hw, Except.ok.injEq]

end Sys2Proof.Machine

/-! The identities of the ALU (R140). -/

namespace Sys2Proof.Machine

theorem add8_comm (a b : Byte) : add8 a b = add8 b a := by
  rw [add8, add8, sum9, sum9, BitVec.add_comm]

/-- A sum that leaves the byte falls below its operands by what it loses, 256 less the other operand. -/
theorem add8_carry_eq_one_iff_lt (a b : Byte) : (add8 a b).2 = 1 ↔ (add8 a b).1 < a := by
  have ha := a.isLt
  have hb := b.isLt
  simp only [BitVec.toNat_eq, BitVec.lt_def, add8_snd_toNat, add8_fst_toNat, BitVec.ofNat_eq_ofNat, BitVec.toNat_ofNat]
  omega

theorem add8_zero (a : Byte) : add8 a 0 = (a, 0) := by
  have hno : ¬ 255 < a.toNat + (0 : Byte).toNat := Nat.not_lt_of_le (Nat.le_of_lt_succ a.isLt)
  refine Prod.ext ?sum ?carry
  case sum => rw [add8_fst_eq_add, BitVec.ofNat_eq_ofNat, BitVec.add_zero]
  case carry => rw [add8_snd_eq_ite, if_neg hno]

/-- Settles O18: sum and carry are the remainder and the quotient by 256; the second operand by symmetry. -/
theorem add8Identities : Obligations.Add8Identities := by
  refine fun a b => ⟨?exact, add8_carry_eq_one_iff_lt a b, ?second, add8_comm a b, add8_zero a⟩
  case exact => rw [add8_fst_toNat, add8_snd_toNat, Nat.div_add_mod]
  case second => exact add8_comm b a ▸ add8_carry_eq_one_iff_lt b a

end Sys2Proof.Machine

/-! Memory during a run (R24 item 5), and the canonical form of memory as the function it reads as. -/

namespace Sys2Proof.Machine

/-! ### What every step keeps -/

/-- A property of states that every step keeps is kept by every bounded run. -/
theorem runFor_keeps {P : State → Prop} (hstep : ∀ s t, P s → step s = .next t → P t) {k : Nat} {s t : State} {e : RunEnd}
    (hs : P s) (h : runFor k s = some (t, e)) : P t := by
  induction k generalizing s with
  | zero =>
    obtain ⟨-, rfl, -⟩ : s.status = .halted ∧ s = t ∧ .ok = e := by simpa [runFor] using h
    exact hs
  | succ k ih =>
    obtain ⟨-, rfl, -⟩ | ⟨u, hu, hrest⟩ | ⟨f, -, rfl, -⟩ := runFor_succ_eq_some h
    · exact hs
    · exact ih (hstep s u hs hu) hrest
    · exact hs

/-- No instruction writes memory (R23). -/
theorem exec_mem {i : Instr} {s t : State} (h : exec i s = .next t) : t.mem = s.mem := by
  cases i with
  | halt | add =>
    obtain rfl := Host.Outcome.next.inj h
    rfl
  | ret => exact (retEffect_of_exec h).mem
  | call nnn => exact (callEffect_of_exec h).mem

theorem step_mem {s t : State} (h : step s = .next t) : t.mem = s.mem := by
  obtain ⟨-, _, _, -, -, hexec⟩ := step_next_inv h
  exact exec_mem hexec

/-- Settles O32: having the memory the run began with is kept by every step. -/
theorem runKeepsMemory : Obligations.RunKeepsMemory := by
  refine ⟨fun s t => step_mem, fun s t e hrun => ?run⟩
  case run =>
    have hstep : ∀ u v : State, u.mem = s.mem → step u = .next v → v.mem = s.mem := fun _ _ hu h => (step_mem h).trans hu
    exact runFor_keeps hstep rfl hrun

/-! ### Canonical memories -/

/-- A canonical memory lists exactly the bytes that do not read as 0, each with its address. -/
theorem Memory.mem_iff_read {m : Memory} (hm : m.wf) (c : Host.Cell) : c ∈ m ↔ c.2 ≠ 0 ∧ m.read c.1 = c.2 := by
  induction m with
  | nil => exact iff_of_false List.not_mem_nil fun h => h.1 h.2.symm
  | cons d m ih =>
    have hd : d.2 ≠ 0 := (hm.2 d List.mem_cons_self).2
    have habove : ∀ e ∈ m, d.1 < e.1 := (List.pairwise_cons.1 hm.1).1
    rw [List.mem_cons, Memory.read]
    by_cases haddr : c.1 = d.1
    · have hnotin : c ∉ m := fun hc => (habove c hc).ne haddr.symm
      rw [if_pos haddr, or_iff_left hnotin, Prod.ext_iff, and_iff_right haddr]
      exact ⟨fun h => ⟨h ▸ hd, h.symm⟩, fun h => h.2.symm⟩
    · have hne : c ≠ d := fun h => haddr (h ▸ rfl)
      rw [if_neg haddr, or_iff_right hne, ih (Memory.wf_tail hm)]

/-- Settles O56: what the memories read as says what they list, and both list it by rising address. -/
theorem canonicalMemoriesThatReadAlikeAreEqual : Obligations.CanonicalMemoriesThatReadAlikeAreEqual := by
  intro m n hm hn hread
  have hcells : ∀ c, c ∈ m ↔ c ∈ n := fun c => by rw [Memory.mem_iff_read hm, Memory.mem_iff_read hn, hread]
  have : Std.Irrefl fun p q : Host.Cell => p.1 < q.1 := ⟨fun p => Nat.lt_irrefl p.1⟩
  have : Std.Antisymm fun p q : Host.Cell => p.1 < q.1 := ⟨fun _ _ hpq hqp => absurd hpq hqp.not_gt⟩
  exact hm.1.eq_of_mem_iff hn.1 hcells

end Sys2Proof.Machine

/-! What the host's transactions other than `run` and reset do to the state (R182 to R187), and what the next fetch reads
after a load (R54) or a placed word. -/

namespace Sys2Proof.Machine

/-! ### The frame of a transaction -/

/-- What the host may leave of the state with a transaction on registers or memory: control state as it was, and a
canonical memory canonical. -/
structure HostEffect (s t : State) : Prop where
  pc : t.pc = s.pc
  sp : t.sp = s.sp
  stack : t.stack = s.stack
  status : t.status = s.status
  mem_wf : s.mem.wf → t.mem.wf

theorem HostEffect.refl (s : State) : HostEffect s s := ⟨rfl, rfl, rfl, rfl, id⟩

theorem hostEffect_of_setRegister {index : Nat} {value : Byte} {s t : State} (h : setRegister index value s = .ok t) :
    HostEffect s t := by
  unfold setRegister at h
  split at h
  · obtain rfl := Except.ok.inj h
    exact ⟨rfl, rfl, rfl, rfl, id⟩
  · cases h

theorem hostEffect_of_memWrite {addr : Nat} {bytes : List Byte} {s t : State} (h : memWrite addr bytes s = .ok t) :
    HostEffect s t := by
  obtain hle | hlt := le_or_gt (addr + bytes.length) 4096
  · obtain rfl := Except.ok.inj ((memWrite_of_le hle).symm.trans h)
    exact ⟨rfl, rfl, rfl, rfl, fun hm => memWrite_wf hm h⟩
  · cases (memWrite_of_lt hlt).symm.trans h

theorem hostEffect_of_loadRange {start stop : Nat} {bytes : List Byte} {s t : State}
    (h : loadRange start stop bytes s = .ok t) : HostEffect s t := by
  by_cases hbad : stop < start ∨ 4096 < stop ∨ stop - start ≠ bytes.length
  · cases (loadRange_of_invalid s hbad).symm.trans h
  · have hload := loadRange_of_valid (bytes := bytes) (start := start) (stop := stop) s
      (by omega) (by omega) (by omega)
    obtain rfl := Except.ok.inj (hload.symm.trans h)
    exact ⟨rfl, rfl, rfl, rfl, fun hm => loadRange_wf hm h⟩

/-- A write that fails changes nothing (R152). -/
theorem hostEffect_answerWrite {r : Except Fault State} {s : State} (h : ∀ t, r = .ok t → HostEffect s t) :
    HostEffect s (answerWrite r s).1 := by
  cases r with
  | ok t => exact h t rfl
  | error f => exact .refl s

theorem answerRead_fst (r : Except Fault Byte) (s : State) : (answerRead r s).1 = s := by
  cases r <;> rfl

theorem hostEffect_transact {t : Transaction} (s : State) (hrun : t ≠ .run) (hreset : ∀ p, t ≠ .reset p) :
    HostEffect s (transact t s).1 := by
  cases t with
  | reset p => exact absurd rfl (hreset p)
  | setRegister => exact hostEffect_answerWrite fun _ => hostEffect_of_setRegister
  | getRegister => exact (answerRead_fst _ s).symm ▸ .refl s
  | writeByte => exact hostEffect_answerWrite fun _ => hostEffect_of_memWrite
  | loadRange => exact hostEffect_answerWrite fun _ => hostEffect_of_loadRange
  | readByte => exact (answerRead_fst _ s).symm ▸ .refl s
  | run => exact absurd rfl hrun

/-- Settles O52: the frame of a transaction on registers or memory. -/
theorem onlyRunAndResetChangeControlState : Obligations.OnlyRunAndResetChangeControlState := by
  intro s t hrun hreset
  obtain ⟨hpc, hsp, hstack, hstatus, -⟩ := hostEffect_transact s hrun hreset
  exact ⟨hpc, hsp, hstack, hstatus⟩

/-! ### What the next fetch reads -/

/-- Settles O51: the load answers Ok and reads back as its two bytes, which are those the fetch joins. -/
theorem hostLoadIsSeenByTheNextFetch : Obligations.HostLoadIsSeenByTheNextFetch := by
  intro s hi lo hm hpc
  obtain ⟨t, hload, hread, -, htpc, -⟩ := (loadRangeTransaction s.pc.toNat (s.pc.toNat + 2) [hi, lo] s).2
    (by omega) (by omega) (by simp) hm
  have hfetch := (State.fetch_eq_ok (s := t)).2 ⟨htpc ▸ hpc, rfl⟩
  refine ⟨t, hload, _, hfetch, ?word⟩
  case word =>
    rw [State.fetch_toNat hfetch, htpc]
    simp [hread]

@[simp] theorem State.placeWord_pc (s : State) (addr : Nat) (w : Word) : (s.placeWord addr w).pc = s.pc := rfl

/-- A word placed in memory reads back as its two bytes, every other byte as it was (R45, R47). -/
theorem State.read_placeWord {s : State} {addr : Nat} (w : Word) (hm : s.mem.wf) (h : addr + 2 ≤ 4096) (a : Nat) :
    (s.placeWord addr w).mem.read a =
      if a = addr then highByte w else if a = addr + 1 then lowByte w else s.mem.read a := by
  have hwrite := Memory.read_writeAll (vs := wordBytes w) hm h a
  rw [State.placeWord, hwrite]
  obtain rfl | hhigh := eq_or_ne a addr
  · simp [wordBytes]
  obtain rfl | hlow := eq_or_ne a (addr + 1)
  · simp [wordBytes]
  · rw [if_neg hhigh, if_neg hlow, if_neg]
    simp only [wordBytes, List.length_cons, List.length_nil]
    omega

theorem State.fetch_placeWord {s : State} (w : Word) (hm : s.mem.wf) (hpc : s.pc.toNat ≤ 4094) :
    (s.placeWord s.pc.toNat w).fetch = .ok w := by
  refine State.fetch_eq_ok.2 ⟨hpc, ?word⟩
  case word =>
    have hread := State.read_placeWord w hm (Nat.add_le_of_le_sub (by decide) hpc)
    rw [State.placeWord_pc, hread, hread]
    simp [joinBytes_highByte_lowByte]

/-- Where the next step of a Running core can fetch: `pc`, or 0 when no fetch succeeds there (log entry 14). -/
def State.placingPc (s : State) : Word := if s.pc.toNat ≤ 4094 then s.pc else 0

theorem State.placingPc_le (s : State) : s.placingPc.toNat ≤ 4094 := by
  unfold State.placingPc
  split
  · assumption
  · decide

theorem State.placingPc_of_le {s : State} (h : s.pc.toNat ≤ 4094) : s.placingPc = s.pc := if_pos h

theorem tableWord_toNat (w : Word) : tableWord 16 w.toNat = w := by
  rw [tableWord, Nat.mod_eq_of_lt w.isLt, BitVec.ofNat_toNat, BitVec.setWidth_eq]

theorem State.withFetchWord_eq (s : State) (w : Word) :
    s.withFetchWord 16 w.toNat = ((s.setPc s.placingPc).placeWord s.placingPc.toNat w).setStatus .running := by
  have hinside : inMemory s.pc.toNat 2 = true ↔ s.pc.toNat ≤ 4094 := by
    rw [inMemory_iff]
    omega
  simp only [State.withFetchWord, State.placingPc, tableWord_toNat, hinside]
  split <;> rfl

/-- Settles O53: the word is placed at `placingPc`, where the next fetch reads it. -/
theorem placedWordIsTheNextInstruction : Obligations.PlacedWordIsTheNextInstruction := by
  intro s w hm
  have hpc := s.placingPc_le
  have hfetch := State.fetch_placeWord (s := s.setPc s.placingPc) w hm hpc
  refine ⟨_, s.withFetchWord_eq w, hfetch, fun i hi => ?step, State.placingPc_of_le, rfl, rfl, rfl, fun a hhigh hlow => ?mem⟩
  case step => exact step_eq_exec rfl hfetch hi
  case mem =>
    have hread := State.read_placeWord (s := s.setPc s.placingPc) w hm (Nat.add_le_of_le_sub (by decide) hpc) a
    exact hread.trans ((if_neg hhigh).trans (if_neg hlow))

end Sys2Proof.Machine

/-! The invariants of R24 and the canonical form of memory: reset meets them, and every step and every transaction of the
host keeps them, so every reachable state meets them. -/

namespace Sys2Proof.Machine

/-! ### Reset -/

/-- Settles O42: no slot is live after reset, and memory is empty. -/
theorem resetMeetsTheInvariants : Obligations.ResetMeetsTheInvariants :=
  fun p hp => ⟨fun _ hlive => absurd hlive (Nat.not_lt_zero _), hp, State.resetAt_mem_wf p⟩

/-! ### Steps -/

/-- Fewer live slots of the same stack are in range with the rest (R126: a popped slot keeps its value). -/
theorem State.liveSlotsInRange_of_stack_eq {s t : State} (hs : s.liveSlotsInRange) (hstack : t.stack = s.stack)
    (hsp : t.sp.val ≤ s.sp.val) : t.liveSlotsInRange := by
  intro i hi
  rw [State.slot, hstack]
  exact hs i (Nat.lt_of_lt_of_le hi hsp)

/-- RETURN goes to a live slot. -/
theorem RetEffect.pc_le {s t : State} (h : RetEffect s t) (hs : s.liveSlotsInRange) : t.pc.toNat ≤ 4096 := by
  have hsp := h.sp
  obtain ⟨k, hk⟩ : ∃ k : Fin 16, s.sp.val = k.val + 1 := ⟨⟨t.sp.val, by omega⟩, hsp.symm⟩
  rw [h.pc k hk]
  exact (hs k (by omega)).2

/-- CALL brings one slot to life, with `npc` in it. -/
theorem CallEffect.liveSlotsInRange {nnn : Imm12} {s t : State} (h : CallEffect nnn s t) (hs : s.liveSlotsInRange)
    (hlow : 2 ≤ s.npc.toNat) (htop : s.npc.toNat ≤ 4096) : t.liveSlotsInRange := by
  intro i hi
  rw [h.sp] at hi
  rw [h.slot]
  split
  · exact ⟨hlow, htop⟩
  · exact hs i (by omega)

theorem CallEffect.pc_le {nnn : Imm12} {s t : State} (h : CallEffect nnn s t) : t.pc.toNat ≤ 4096 := by
  rw [h.pc, callTarget_toNat]
  exact nnn.isLt.le

/-- After a fetch, `npc` is in [2,4096], the one number an instruction brings into the control state. -/
theorem exec_keeps_inv {i : Instr} {s t : State} {w : Word} (hs : s.inv) (hw : s.fetch = .ok w)
    (h : exec i s = .next t) : t.inv := by
  obtain ⟨hlive, -, hmem⟩ := hs
  obtain ⟨hnpc, htop⟩ := advanceDoesNotWrap s w hw
  have htmem : t.mem.wf := exec_mem h ▸ hmem
  cases i with
  | halt | add =>
    obtain rfl := Host.Outcome.next.inj h
    exact ⟨hlive, htop, htmem⟩
  | ret =>
    have ht := retEffect_of_exec h
    exact ⟨State.liveSlotsInRange_of_stack_eq hlive ht.stack (Nat.le.intro ht.sp), ht.pc_le hlive, htmem⟩
  | call nnn =>
    have ht := callEffect_of_exec h
    exact ⟨ht.liveSlotsInRange hlive (by omega) htop, ht.pc_le, htmem⟩

/-- Settles O43: the instruction the step runs was fetched. -/
theorem stepKeepsTheInvariants : Obligations.StepKeepsTheInvariants := by
  intro s t hs h
  obtain ⟨-, _, _, hw, -, hexec⟩ := step_next_inv h
  exact exec_keeps_inv hs hw hexec

/-! ### Transactions -/

theorem HostEffect.inv {s t : State} (h : HostEffect s t) (hs : s.inv) : t.inv := by
  obtain ⟨hlive, hpc, hmem⟩ := hs
  exact ⟨State.liveSlotsInRange_of_stack_eq hlive h.stack (h.sp ▸ Nat.le_refl _), h.pc ▸ hpc, h.mem_wf hmem⟩

/-- A run that ends leaves the host the state it ends in (R107). -/
theorem transact_run_fst {s t : State} {e : RunEnd} (h : run s = some (t, e)) : (transact .run s).1 = t := by
  cases e <;> simp only [transact, h, answerRun]

/-- Settles O44: a run keeps what its steps keep, and the other transactions write registers and memory alone. -/
theorem transactionKeepsTheInvariants : Obligations.TransactionKeepsTheInvariants := by
  intro s t hs hreset
  cases t with
  | reset p => exact resetMeetsTheInvariants p (hreset p rfl)
  | run =>
    obtain ⟨u, e, hrun⟩ := everyRunEnds s
    rw [transact_run_fst hrun]
    exact runFor_keeps stepKeepsTheInvariants hs hrun
  | setRegister | getRegister | writeByte | loadRange | readByte =>
    exact HostEffect.inv (hostEffect_transact s nofun nofun) hs

/-! ### Reachable states -/

/-- Settles O45, by induction on the way from reset. -/
theorem reachableStatesMeetTheInvariants : Obligations.ReachableStatesMeetTheInvariants := by
  intro s hs
  induction hs with
  | reset p hp => exact resetMeetsTheInvariants p hp
  | step s t _ h ih => exact stepKeepsTheInvariants s t ih h
  | transact s t _ h ih => exact transactionKeepsTheInvariants s t ih h

end Sys2Proof.Machine
